-- ==== Sys2Proof/Word.lean ====
section
/-! DEFINITION. The bit vectors that the block moves (spec/00_scope.md R5 to R8, R12) and the two word widths. -/

namespace Sys2Proof

/-- The contents of a data register: `XLEN = 128` bits (R8, R21). -/
abbrev Word := BitVec 128

/-- A command word, and the contents of a control register: 32 bits (R30, R70). -/
abbrev Cmd := BitVec 32

/-- One byte of the layout that tools use for command words and register values (R58). -/
abbrev Byte := BitVec 8

/-- The word width of a constructed instance: 32 or 64 bits and no other (R5). It is the `w` field of a slot
(R24, R26): `w32` stands for `w = 0`, `w64` for `w = 1`. -/
inductive WordWidth where
  | w32
  | w64
  deriving DecidableEq, Repr

/-- The number of bits `W` of a word width (R5). -/
def WordWidth.bits : WordWidth → Nat
  | .w32 => 32
  | .w64 => 64

end Sys2Proof
end

