-- ==== Sys2Proof/Config.lean ====
section
/-! DEFINITION. What is fixed for the hardware (spec/00_scope.md, section 3) and the free values (R17). The build
parameter `CHECKED` is the field `checked` of State: it is open, and a claim holds for both its values (log 1). -/

namespace Sys2Proof

/-- `NEWTON_ITERS = 6`: the number of refinement steps of the modular inverse, at both word widths (R11). -/
def Config.newtonIters : Nat := 6

/-- The native width, 64: a 128-bit bit-scan operand is decomposed into halves of this width (R7, R12). -/
def Config.nativeWidth : Nat := 64

/-- `unspec(bits)` of R17: the unspecified value of `bits` bits at the draw numbered `draw`. It has no body, so that
nothing can be proved of it but that it lies in `[0, 2^bits)`. Every occurrence is a fresh draw: the step counts the
draws in `State.draws` (DESIGN CHOICE, log 5; safe for a claim about one run). -/
opaque Config.unspec (bits draw : Nat) : BitVec bits

end Sys2Proof
end

