-- ==== Sys2Proof/Syntax.lean ====
section
/-! DEFINITION. The 28 commands (spec/30_encoding.md R78), the fields of a command word (R71), and the five host
transactions (spec/20_memory.md R52). -/

namespace Sys2Proof

/-- A data register index, 0 to 15; all sixteen are legal (R51, R74). -/
abbrev RegIdx := Fin 16

/-- A slot index, 0 to 255; all 256 are legal (R51, R76). -/
abbrev SlotIdx := Fin 256

/-- The commands, one constructor for each row of the opcode map (R78). Operands are the free fields of the row's
format (R77), in the order `rd`, `rs`, `c`. -/
inductive Instr where
  | popcnt32 (rd rs : RegIdx)
  | popcnt64 (rd rs : RegIdx)
  | popcnt128 (rd rs : RegIdx)
  | clz32 (rd rs : RegIdx)
  | clz64 (rd rs : RegIdx)
  | clz128 (rd rs : RegIdx)
  | ctz32 (rd rs : RegIdx)
  | ctz64 (rd rs : RegIdx)
  | ctz128 (rd rs : RegIdx)
  | ilog2_32 (rd rs : RegIdx)
  | ilog2_64 (rd rs : RegIdx)
  | ilog2_128 (rd rs : RegIdx)
  | fdnew32 (rs : RegIdx) (c : SlotIdx)
  | fdnew64 (rs : RegIdx) (c : SlotIdx)
  | fddiv (rd rs : RegIdx) (c : SlotIdx)
  | fdmod (rd rs : RegIdx) (c : SlotIdx)
  | fdrdM (rd : RegIdx) (c : SlotIdx)
  | fdrdMul (rd : RegIdx) (c : SlotIdx)
  | fdrdShamt (rd : RegIdx) (c : SlotIdx)
  | fdrdW (rd : RegIdx) (c : SlotIdx)
  | ednew32 (rs : RegIdx) (c : SlotIdx)
  | ednew64 (rs : RegIdx) (c : SlotIdx)
  | edtest (rd rs : RegIdx) (c : SlotIdx)
  | edquo (rd rs : RegIdx) (c : SlotIdx)
  | edrdN (rd : RegIdx) (c : SlotIdx)
  | edrdInv (rd : RegIdx) (c : SlotIdx)
  | edrdThr (rd : RegIdx) (c : SlotIdx)
  | edrdW (rd : RegIdx) (c : SlotIdx)
  deriving DecidableEq, Repr

/-- The data register a command writes when it completes, `none` for the constructions (R22, R74). -/
def Instr.dest : Instr → Option RegIdx
  | .popcnt32 rd _ | .popcnt64 rd _ | .popcnt128 rd _ => some rd
  | .clz32 rd _ | .clz64 rd _ | .clz128 rd _ => some rd
  | .ctz32 rd _ | .ctz64 rd _ | .ctz128 rd _ => some rd
  | .ilog2_32 rd _ | .ilog2_64 rd _ | .ilog2_128 rd _ => some rd
  | .fdnew32 _ _ | .fdnew64 _ _ | .ednew32 _ _ | .ednew64 _ _ => none
  | .fddiv rd _ _ | .fdmod rd _ _ | .edtest rd _ _ | .edquo rd _ _ => some rd
  | .fdrdM rd _ | .fdrdMul rd _ | .fdrdShamt rd _ | .fdrdW rd _ => some rd
  | .edrdN rd _ | .edrdInv rd _ | .edrdThr rd _ | .edrdW rd _ => some rd

/-- The data register a command reads, `none` for the read-outs (R22, R74). -/
def Instr.source : Instr → Option RegIdx
  | .popcnt32 _ rs | .popcnt64 _ rs | .popcnt128 _ rs => some rs
  | .clz32 _ rs | .clz64 _ rs | .clz128 _ rs => some rs
  | .ctz32 _ rs | .ctz64 _ rs | .ctz128 _ rs => some rs
  | .ilog2_32 _ rs | .ilog2_64 _ rs | .ilog2_128 _ rs => some rs
  | .fdnew32 rs _ | .fdnew64 rs _ | .ednew32 rs _ | .ednew64 rs _ => some rs
  | .fddiv _ rs _ | .fdmod _ rs _ | .edtest _ rs _ | .edquo _ rs _ => some rs
  | .fdrdM _ _ | .fdrdMul _ _ | .fdrdShamt _ _ | .fdrdW _ _ => none
  | .edrdN _ _ | .edrdInv _ _ | .edrdThr _ _ | .edrdW _ _ => none

/-- The Fast Division slot a command names: written by `FDNEW`, read by the others (R51). -/
def Instr.fdSlot : Instr → Option SlotIdx
  | .fdnew32 _ c | .fdnew64 _ c => some c
  | .fddiv _ _ c | .fdmod _ _ c => some c
  | .fdrdM _ c | .fdrdMul _ c | .fdrdShamt _ c | .fdrdW _ c => some c
  | .popcnt32 _ _ | .popcnt64 _ _ | .popcnt128 _ _ | .clz32 _ _ | .clz64 _ _ | .clz128 _ _ => none
  | .ctz32 _ _ | .ctz64 _ _ | .ctz128 _ _ | .ilog2_32 _ _ | .ilog2_64 _ _ | .ilog2_128 _ _ => none
  | .ednew32 _ _ | .ednew64 _ _ | .edtest _ _ _ | .edquo _ _ _ => none
  | .edrdN _ _ | .edrdInv _ _ | .edrdThr _ _ | .edrdW _ _ => none

/-- The Exact Divisor slot a command names: written by `EDNEW`, read by the others (R51). -/
def Instr.edSlot : Instr → Option SlotIdx
  | .ednew32 _ c | .ednew64 _ c => some c
  | .edtest _ _ c | .edquo _ _ c => some c
  | .edrdN _ c | .edrdInv _ c | .edrdThr _ c | .edrdW _ c => some c
  | .popcnt32 _ _ | .popcnt64 _ _ | .popcnt128 _ _ | .clz32 _ _ | .clz64 _ _ | .clz128 _ _ => none
  | .ctz32 _ _ | .ctz64 _ _ | .ctz128 _ _ | .ilog2_32 _ _ | .ilog2_64 _ _ | .ilog2_128 _ _ => none
  | .fdnew32 _ _ | .fdnew64 _ _ | .fddiv _ _ _ | .fdmod _ _ _ => none
  | .fdrdM _ _ | .fdrdMul _ _ | .fdrdShamt _ _ | .fdrdW _ _ => none

/-- The six fields of a command word, at the same positions in every format (R71). -/
structure CmdFields where
  op : BitVec 8
  w  : BitVec 4
  rd : BitVec 4
  rs : BitVec 4
  f  : BitVec 4
  c  : BitVec 8
  deriving DecidableEq, Repr

/-- The five kinds of host transaction and no other (R52). The index of a control register is any 32-bit number (R55). -/
inductive Transaction where
  | hostWriteReg (j : RegIdx) (v : Word)
  | hostReadReg (j : RegIdx)
  | hostReadCtl (j : BitVec 32)
  | issue (cmd : Cmd)
  | reset
  deriving DecidableEq, Repr

end Sys2Proof
end

