-- ==== Sys2Proof/WellFormed.lean ====
section
/-! DEFINITION. Which field values make a legal command word (spec/30_encoding.md R72 to R77, R80), written from the
prose of those rules and not from the opcode table that Decode.lean follows. A term of `Instr` needs no check of its
own: each operand's type is exactly the index space the rules give it (R74, R76). -/

namespace Sys2Proof

/-- `op` is a bit-scan opcode (R72), whose commands have format S (R77). -/
def CmdFields.isScan (k : CmdFields) : Bool := 0x01 ≤ k.op.toNat && k.op.toNat ≤ 0x04

/-- `op` is that of `FDNEW` or `EDNEW`, format N (R77, R78). -/
def CmdFields.isNew (k : CmdFields) : Bool := k.op.toNat == 0x10 || k.op.toNat == 0x20

/-- `op` is that of `FDDIV`, `FDMOD`, `EDTEST` or `EDQUO`, format Q (R77, R78). -/
def CmdFields.isQuery (k : CmdFields) : Bool :=
  k.op.toNat == 0x11 || k.op.toNat == 0x12 || k.op.toNat == 0x21 || k.op.toNat == 0x22

/-- `op` is that of the read-outs, format G (R77, R78). -/
def CmdFields.isGet (k : CmdFields) : Bool := k.op.toNat == 0x13 || k.op.toNat == 0x23

/-- `op` is one of the assigned values `0x01` to `0x04`, `0x10` to `0x13`, `0x20` to `0x23` (R72). -/
def CmdFields.opAssigned (k : CmdFields) : Bool := k.isScan || k.isNew || k.isQuery || k.isGet

/-- Bit-scan commands accept `w` 0, 1, 2; constructions 0, 1; every other command requires `w = 0` (R73). -/
def CmdFields.widthLegal (k : CmdFields) : Bool :=
  if k.isScan then k.w.toNat ≤ 2 else if k.isNew then k.w.toNat ≤ 1 else k.w.toNat == 0

/-- A command that does not use `rd` (the constructions) requires `rd = 0` (R74). -/
def CmdFields.destLegal (k : CmdFields) : Bool := if k.isNew then k.rd.toNat == 0 else true

/-- A command that does not use `rs` (the read-outs) requires `rs = 0` (R74). -/
def CmdFields.sourceLegal (k : CmdFields) : Bool := if k.isGet then k.rs.toNat == 0 else true

/-- Read-outs take `f` 0 to 3; every other command requires `f = 0` (R75). -/
def CmdFields.selectorLegal (k : CmdFields) : Bool := if k.isGet then k.f.toNat ≤ 3 else k.f.toNat == 0

/-- Bit-scan commands require `c = 0` (R76). -/
def CmdFields.slotLegal (k : CmdFields) : Bool := if k.isScan then k.c.toNat == 0 else true

/-- The fields of a legal command: all six checks (R80 lists their failures). -/
def CmdFields.wellFormed (k : CmdFields) : Bool :=
  k.opAssigned && k.widthLegal && k.destLegal && k.sourceLegal && k.selectorLegal && k.slotLegal

end Sys2Proof
end

