-- ==== Sys2Proof/Decode.lean ====
section
/-! DEFINITION. The opcode map (spec/30_encoding.md R78), the decoder (R79), the encoder (R71, R77), and the byte layout
that tools use (spec/20_memory.md R58). -/

namespace Sys2Proof

/-- The fields read from the positions of R71. -/
def CmdFields.ofWord (cmd : Cmd) : CmdFields where
  op := cmd.extractLsb' 24 8
  w  := cmd.extractLsb' 20 4
  rd := cmd.extractLsb' 16 4
  rs := cmd.extractLsb' 12 4
  f  := cmd.extractLsb' 8 4
  c  := cmd.extractLsb' 0 8

/-- The command word with the given fields: the concatenation `op w rd rs f c`, `op` the most significant (R71). -/
def CmdFields.word (k : CmdFields) : Cmd := k.op ++ k.w ++ k.rd ++ k.rs ++ k.f ++ k.c

/-- The data register named by a 4-bit field: the unsigned value of its bits (R74, R82). -/
def regOfBits (b : BitVec 4) : RegIdx := b.toFin

/-- The slot named by an 8-bit field (R76, R82). -/
def slotOfBits (b : BitVec 8) : SlotIdx := b.toFin

/-- The 4-bit field that names a data register (R74). -/
def bitsOfReg (r : RegIdx) : BitVec 4 := BitVec.ofFin r

/-- The 8-bit field that names a slot (R76). -/
def bitsOfSlot (c : SlotIdx) : BitVec 8 := BitVec.ofFin c

/-- `rd` of a command's fields. -/
def CmdFields.dest (k : CmdFields) : RegIdx := regOfBits k.rd

/-- `rs` of a command's fields. -/
def CmdFields.source (k : CmdFields) : RegIdx := regOfBits k.rs

/-- `c` of a command's fields. -/
def CmdFields.slot (k : CmdFields) : SlotIdx := slotOfBits k.c

/-- A row of the opcode map: mnemonic, `match`, `mask`, and the command it stands for with the row's free fields (R77, R78). -/
structure Row where
  mnemonic : String
  pattern  : Cmd
  mask     : Cmd
  instr    : CmdFields → Instr

/-- "row `r` matches when `cmd AND r.mask = r.match`" (R79). -/
def Row.matches (r : Row) (cmd : Cmd) : Bool := cmd &&& r.mask == r.pattern

/-- The rows of format S: the bit-scan commands (R77, R78). -/
def scanRows : List Row :=
  [⟨"POPCNT.32",  0x01000000, 0xFFF00FFF, fun k => .popcnt32 k.dest k.source⟩,
   ⟨"POPCNT.64",  0x01100000, 0xFFF00FFF, fun k => .popcnt64 k.dest k.source⟩,
   ⟨"POPCNT.128", 0x01200000, 0xFFF00FFF, fun k => .popcnt128 k.dest k.source⟩,
   ⟨"CLZ.32",     0x02000000, 0xFFF00FFF, fun k => .clz32 k.dest k.source⟩,
   ⟨"CLZ.64",     0x02100000, 0xFFF00FFF, fun k => .clz64 k.dest k.source⟩,
   ⟨"CLZ.128",    0x02200000, 0xFFF00FFF, fun k => .clz128 k.dest k.source⟩,
   ⟨"CTZ.32",     0x03000000, 0xFFF00FFF, fun k => .ctz32 k.dest k.source⟩,
   ⟨"CTZ.64",     0x03100000, 0xFFF00FFF, fun k => .ctz64 k.dest k.source⟩,
   ⟨"CTZ.128",    0x03200000, 0xFFF00FFF, fun k => .ctz128 k.dest k.source⟩,
   ⟨"ILOG2.32",   0x04000000, 0xFFF00FFF, fun k => .ilog2_32 k.dest k.source⟩,
   ⟨"ILOG2.64",   0x04100000, 0xFFF00FFF, fun k => .ilog2_64 k.dest k.source⟩,
   ⟨"ILOG2.128",  0x04200000, 0xFFF00FFF, fun k => .ilog2_128 k.dest k.source⟩]

/-- The rows of Fast Division: formats N, Q and G (R77, R78). -/
def fastDivRows : List Row :=
  [⟨"FDNEW.32",   0x10000000, 0xFFFF0F00, fun k => .fdnew32 k.source k.slot⟩,
   ⟨"FDNEW.64",   0x10100000, 0xFFFF0F00, fun k => .fdnew64 k.source k.slot⟩,
   ⟨"FDDIV",      0x11000000, 0xFFF00F00, fun k => .fddiv k.dest k.source k.slot⟩,
   ⟨"FDMOD",      0x12000000, 0xFFF00F00, fun k => .fdmod k.dest k.source k.slot⟩,
   ⟨"FDRD.M",     0x13000000, 0xFFF0FF00, fun k => .fdrdM k.dest k.slot⟩,
   ⟨"FDRD.MUL",   0x13000100, 0xFFF0FF00, fun k => .fdrdMul k.dest k.slot⟩,
   ⟨"FDRD.SHAMT", 0x13000200, 0xFFF0FF00, fun k => .fdrdShamt k.dest k.slot⟩,
   ⟨"FDRD.W",     0x13000300, 0xFFF0FF00, fun k => .fdrdW k.dest k.slot⟩]

/-- The rows of the Exact Divisor: formats N, Q and G (R77, R78). -/
def exactDivRows : List Row :=
  [⟨"EDNEW.32",   0x20000000, 0xFFFF0F00, fun k => .ednew32 k.source k.slot⟩,
   ⟨"EDNEW.64",   0x20100000, 0xFFFF0F00, fun k => .ednew64 k.source k.slot⟩,
   ⟨"EDTEST",     0x21000000, 0xFFF00F00, fun k => .edtest k.dest k.source k.slot⟩,
   ⟨"EDQUO",      0x22000000, 0xFFF00F00, fun k => .edquo k.dest k.source k.slot⟩,
   ⟨"EDRD.N",     0x23000000, 0xFFF0FF00, fun k => .edrdN k.dest k.slot⟩,
   ⟨"EDRD.INV",   0x23000100, 0xFFF0FF00, fun k => .edrdInv k.dest k.slot⟩,
   ⟨"EDRD.THR",   0x23000200, 0xFFF0FF00, fun k => .edrdThr k.dest k.slot⟩,
   ⟨"EDRD.W",     0x23000300, 0xFFF0FF00, fun k => .edrdW k.dest k.slot⟩]

/-- The complete opcode map: "28 commands ... No other command exists" (R78). -/
def opcodeMap : List Row := scanRows ++ fastDivRows ++ exactDivRows

/-- Why a word is refused. There is one reason: it matches no row of the opcode map (R80). -/
inductive DecodeError where
  | illegalCommand
  deriving DecidableEq, Repr

/-- Decoding tests the rows of the opcode map and reads no state (R79); a word that matches no row is illegal (R80). -/
def decode (cmd : Cmd) : Except DecodeError Instr :=
  match opcodeMap.find? (·.matches cmd) with
  | some r => .ok (r.instr (.ofWord cmd))
  | none => .error .illegalCommand

/-- Format S: `rd`, `rs` free, `f = 0`, `c = 0` (R77). -/
def formatS (op : BitVec 8) (w : BitVec 4) (rd rs : RegIdx) : Cmd :=
  CmdFields.word ⟨op, w, bitsOfReg rd, bitsOfReg rs, 0, 0⟩

/-- Format N: `rs`, `c` free, `rd = 0`, `f = 0` (R77). -/
def formatN (op : BitVec 8) (w : BitVec 4) (rs : RegIdx) (c : SlotIdx) : Cmd :=
  CmdFields.word ⟨op, w, 0, bitsOfReg rs, 0, bitsOfSlot c⟩

/-- Format Q: `rd`, `rs`, `c` free, `w = 0`, `f = 0` (R77). -/
def formatQ (op : BitVec 8) (rd rs : RegIdx) (c : SlotIdx) : Cmd :=
  CmdFields.word ⟨op, 0, bitsOfReg rd, bitsOfReg rs, 0, bitsOfSlot c⟩

/-- Format G: `rd`, `c` free, `w = 0`, `rs = 0` (R77). -/
def formatG (op : BitVec 8) (f : BitVec 4) (rd : RegIdx) (c : SlotIdx) : Cmd :=
  CmdFields.word ⟨op, 0, bitsOfReg rd, 0, f, bitsOfSlot c⟩

/-- The word of a command, from the columns `fmt`, `op` and selector of R78. -/
def encode : Instr → Cmd
  | .popcnt32 rd rs   => formatS 0x01 0 rd rs
  | .popcnt64 rd rs   => formatS 0x01 1 rd rs
  | .popcnt128 rd rs  => formatS 0x01 2 rd rs
  | .clz32 rd rs      => formatS 0x02 0 rd rs
  | .clz64 rd rs      => formatS 0x02 1 rd rs
  | .clz128 rd rs     => formatS 0x02 2 rd rs
  | .ctz32 rd rs      => formatS 0x03 0 rd rs
  | .ctz64 rd rs      => formatS 0x03 1 rd rs
  | .ctz128 rd rs     => formatS 0x03 2 rd rs
  | .ilog2_32 rd rs   => formatS 0x04 0 rd rs
  | .ilog2_64 rd rs   => formatS 0x04 1 rd rs
  | .ilog2_128 rd rs  => formatS 0x04 2 rd rs
  | .fdnew32 rs c     => formatN 0x10 0 rs c
  | .fdnew64 rs c     => formatN 0x10 1 rs c
  | .fddiv rd rs c    => formatQ 0x11 rd rs c
  | .fdmod rd rs c    => formatQ 0x12 rd rs c
  | .fdrdM rd c       => formatG 0x13 0 rd c
  | .fdrdMul rd c     => formatG 0x13 1 rd c
  | .fdrdShamt rd c   => formatG 0x13 2 rd c
  | .fdrdW rd c       => formatG 0x13 3 rd c
  | .ednew32 rs c     => formatN 0x20 0 rs c
  | .ednew64 rs c     => formatN 0x20 1 rs c
  | .edtest rd rs c   => formatQ 0x21 rd rs c
  | .edquo rd rs c    => formatQ 0x22 rd rs c
  | .edrdN rd c       => formatG 0x23 0 rd c
  | .edrdInv rd c     => formatG 0x23 1 rd c
  | .edrdThr rd c     => formatG 0x23 2 rd c
  | .edrdW rd c       => formatG 0x23 3 rd c

/-- A value of `8 * n` bits laid out in bytes by a tool, least significant byte first: "byte `b` of the layout holds bits
`8b+7 : 8b`" (R58). The block itself moves no bytes. -/
def layout (n : Nat) (v : BitVec (8 * n)) : List Byte := (List.range n).map fun b => v.extractLsb' (8 * b) 8

/-- The number that a little-endian layout stands for (R58). -/
def layoutValue : List Byte → Nat
  | [] => 0
  | b :: rest => b.toNat + 256 * layoutValue rest

/-- The command at the front of a byte layout, and what follows it: every command has four bytes (R58, R70). -/
def decodeBytes : List Byte → Except DecodeError (Instr × List Byte)
  | b0 :: b1 :: b2 :: b3 :: rest => (decode (BitVec.ofNat 32 (layoutValue [b0, b1, b2, b3]))).map (·, rest)
  | _ => .error .illegalCommand

/-- The command word whose low `nbits` bits are those of `w` and whose other bits are 0 (log 16). -/
def tableWord (nbits w : Nat) : Cmd := BitVec.ofNat 32 (w % 2 ^ nbits)

/-- What the decoder reads from a word given by its number, bit 0 the least significant (R12, R71; log 16). -/
def decodeTableWord (nbits w : Nat) : Option Instr := (decode (tableWord nbits w)).toOption

end Sys2Proof
end

