-- ==== Sys2Proof/Machine/State.lean ====
section
/-! DEFINITION. The state of the block (spec/10_state.md R20 to R38), the parameters of its step (R36), the state after
reset (R35), and the reasons a step could stop. -/

namespace Sys2Proof.Machine

/-- The fault causes (spec/60_exceptions.md R191). A fault of the block is a NEXT state of the model, the one fault entry
leaves (R196, log 7); its code is `Cause.code`. -/
inductive Cause where
  | illegalCommand
  | ctxInvalid
  | operandRange
  | zeroInput
  | divisorZero
  | divisorEven
  deriving DecidableEq, Repr

/-- The instance in a full Fast Division slot (R24). An empty slot is `none` and holds no fields (R23, R35, log 6). -/
structure FdSlot where
  /-- the word width of the instance -/
  w     : WordWidth
  /-- the divisor -/
  m     : BitVec 64
  /-- the multiplier, the document's `x` -/
  mul   : BitVec 64
  /-- the shift amount, 0 to 127 -/
  shamt : BitVec 7
  deriving DecidableEq, Repr

/-- The instance in a full Exact Divisor slot (R26). -/
structure EdSlot where
  /-- the word width of the instance -/
  w   : WordWidth
  /-- the divisor -/
  n   : BitVec 64
  /-- the modular inverse, the document's `i` -/
  inv : BitVec 64
  /-- the threshold, the document's `t` -/
  thr : BitVec 64
  deriving DecidableEq, Repr

/-- A value that a host read returned (spec/20_memory.md R54, R55): a data register's or a control register's. -/
inductive Response where
  | reg (v : Word)
  | ctl (v : BitVec 32)
  deriving DecidableEq, Repr

/-- The state. The first five fields are the spec's whole architectural state (R20); the last four are the model's own:
the parameters of the step relation (R36) and what the host has been told. -/
structure State where
  /-- the data registers (R21) -/
  x        : Vector Word 16
  /-- the Fast Division slots, empty or full (R23, R24) -/
  fd       : Vector (Option FdSlot) 256
  /-- the Exact Divisor slots, empty or full (R23, R26) -/
  ed       : Vector (Option EdSlot) 256
  /-- control register 1 (R32); its fields are read by the accessors of Flags.lean -/
  status   : BitVec 32
  /-- control register 2 (R33) -/
  fcmd     : BitVec 32
  /-- the build parameter `CHECKED` (spec/00_scope.md R10); no step changes it (log 1) -/
  checked  : Bool
  /-- the host transactions still to be performed, the next one first (R27, R36, log 2) -/
  pending  : List Transaction
  /-- the values the host's reads have returned, the oldest first (log 4) -/
  returned : List Response
  /-- how many unspecified values have been drawn (spec/00_scope.md R17, log 5) -/
  draws    : Nat
  deriving DecidableEq, Repr

/-- Reasons for which a step could stop with a fault. There is none, and nothing raises one: the spec gives every command and
every transaction an effect, and the block's own fault is a next state (R196, R197, log 7; safe, since no behaviour is cut off). -/
inductive Fault where
  deriving DecidableEq, Repr

/-- Reasons for which a step could be refused. -/
inductive Refusal where
  /-- Raised by `exec` for a command without a meaning. Safe: a claim about a next state says nothing of it. Every command
  has its meaning, so no arm raises it. -/
  | notModelled (mnemonic : String)
  deriving DecidableEq, Repr

/-- The state after reset of a build with the given `CHECKED` (R35): every data register 0, every slot empty, `STATUS` and
`FCMD` 0. The host's side is empty and nothing has been drawn (DESIGN CHOICE, logs 2, 4, 5). -/
def State.resetOn (checked : Bool) : State where
  x        := Vector.replicate 16 0
  fd       := Vector.replicate 256 none
  ed       := Vector.replicate 256 none
  status   := 0
  fcmd     := 0
  checked  := checked
  pending  := []
  returned := []
  draws    := 0

/-- The machine right after reset. The build is open in the spec (D21); the one named here is the release path,
`CHECKED = 0` (DESIGN CHOICE, log 1; unsafe for a claim that rests on it). -/
def State.reset : State := State.resetOn false

end Sys2Proof.Machine
end

