-- ==== Sys2Proof/Machine/Flags.lean ====
section
/-! DEFINITION. The block has no flags (spec/10_state.md R28). What it has in their place are control registers: the fields
of `STATUS` (R32), the constant `ID` (R31), the fault codes (spec/60_exceptions.md R191), and running and halted (R38). -/

namespace Sys2Proof.Machine

/-- The code of a cause, the value fault entry writes to `STATUS.CAUSE` (R191). -/
def Cause.code : Cause → BitVec 4
  | .illegalCommand => 1
  | .ctxInvalid     => 2
  | .operandRange   => 3
  | .zeroInput      => 4
  | .divisorZero    => 5
  | .divisorEven    => 6

/-- `STATUS.FAULT`, bit 0 (R32). -/
def statusFault (v : BitVec 32) : Bool := v.getLsbD 0

/-- `STATUS.CAUSE`, bits 11:8 (R32). -/
def statusCause (v : BitVec 32) : BitVec 4 := v.extractLsb' 8 4

/-- `STATUS` with `FAULT = 1` and the given cause; bits 31:12 and 7:1 are hard-wired 0 (R32, log 10). -/
def statusOf (cause : Cause) : BitVec 32 := 0#20 ++ cause.code ++ 0#7 ++ 1#1

/-- `ID`: bit 0 is `CHECKED`, bits 31:1 are hard-wired 0 (R31). -/
def idWord (checked : Bool) : BitVec 32 := if checked then 1 else 0

/-- The block is halted while `STATUS.FAULT = 1` and running otherwise (R38). -/
def State.halted (s : State) : Bool := statusFault s.status

end Sys2Proof.Machine
end

