-- ==== Sys2Proof/Machine/Ops.lean ====
section
/-! DEFINITION. The named operations over the registers and slots, taking a fault (spec/60_exceptions.md R196) and leaving
the halted state by reset (R198), and drawing an unspecified value (spec/00_scope.md R17). -/

namespace Sys2Proof.Machine

/-- `x[r]`, all 128 bits (spec/00_scope.md R15). -/
def State.readReg (s : State) (r : RegIdx) : Word := s.x[r.val]

/-- `x[r] <- v` (R15). No register is hard-wired (spec/10_state.md R21). -/
def State.writeReg (s : State) (r : RegIdx) (v : Word) : State := { s with x := s.x.set r.val v r.isLt }

/-- `fd[c]`; `none` is an empty slot (R15, R23). -/
def State.readFd (s : State) (c : SlotIdx) : Option FdSlot := s.fd[c.val]

/-- `fd[c] <- {full = 1, ...}`: the whole slot at once (R15, R29). -/
def State.writeFd (s : State) (c : SlotIdx) (d : FdSlot) : State := { s with fd := s.fd.set c.val (some d) c.isLt }

/-- `ed[c]`; `none` is an empty slot (R15, R23). -/
def State.readEd (s : State) (c : SlotIdx) : Option EdSlot := s.ed[c.val]

/-- `ed[c] <- {full = 1, ...}`: the whole slot at once (R15, R29). -/
def State.writeEd (s : State) (c : SlotIdx) (d : EdSlot) : State := { s with ed := s.ed.set c.val (some d) c.isLt }

/-- The control register that `HostReadCtl(j)` returns: `ID`, `STATUS`, `FCMD`, and 0 for every other index (R30, R55). -/
def State.readCtl (s : State) (j : BitVec 32) : BitVec 32 :=
  if j = 0 then idWord s.checked else if j = 1 then s.status else if j = 2 then s.fcmd else 0

/-- Fault entry, `raise C(cmd)` (R196): `STATUS.FAULT <- 1`, `STATUS.CAUSE <- code(C)`, `FCMD <- cmd` and nothing else. -/
def raise (cause : Cause) (cmd : Cmd) (s : State) : State := { s with status := statusOf cause, fcmd := cmd }

/-- `violate C` (spec/00_scope.md R18): fault entry on a checked build, the rule's unchecked outcome on an unchecked one. -/
def violate (cause : Cause) (cmd : Cmd) (unchecked : State → State) (s : State) : State :=
  if s.checked then raise cause cmd s else unchecked s

/-- A fresh `unspec(bits)` and the state that has counted the draw (R17, log 5). -/
def State.draw (s : State) (bits : Nat) : BitVec bits × State :=
  (Config.unspec bits s.draws, { s with draws := s.draws + 1 })

/-- `x[rd] <- zext_128(unspec(bits))`: the unchecked outcome of a bit-scan command and of a query (R100, R137, R170). -/
def drawReg (bits : Nat) (rd : RegIdx) (s : State) : State :=
  let (v, s) := s.draw bits
  s.writeReg rd (v.setWidth 128)

/-- The spec's state put to its values after reset (spec/10_state.md R35, spec/70_reset_and_hazards.md R220). It is also the
only return from a fault (R198). `CHECKED` does not change (R220), and the model's own fields go on (log 11). -/
def State.resetBlock (s : State) : State :=
  { State.resetOn s.checked with pending := s.pending, returned := s.returned, draws := s.draws }

end Sys2Proof.Machine
end

