-- ==== Sys2Proof/Machine/Operands.lean ====
section
/-! DEFINITION. The operand forms of the commands (spec/10_state.md R22, spec/30_encoding.md R77): the source register, the
result register, and the templates of the query format Q and the read-out format G. -/

namespace Sys2Proof.Machine

/-- The operand of a command: the whole 128-bit value of `x[rs]`, never truncated (R22). -/
def State.operand (s : State) (rs : RegIdx) : Nat := (s.readReg rs).toNat

/-- `x[rd] <- zext_128(v)`: the result, zero-extended (R14, R22). -/
def State.writeResult (s : State) (rd : RegIdx) (v : Nat) : State := s.writeReg rd (BitVec.ofNat 128 v)

/-- A query on a slot (R137, R142, R170, R172): an empty slot is `CtxInvalid` on both builds, before the operand is looked at
(R195); an operand that does not fit the slot's width `W` is `OperandRange`, whose unchecked outcome draws `drawn W` bits into
`x[rd]`; otherwise `x[rd]` gets `value` of the instance and the operand. -/
def query {α : Type} (slot : Option α) (width : α → WordWidth) (drawn : Nat → Nat) (value : α → Nat → Nat)
    (cmd : Cmd) (rd rs : RegIdx) (s : State) : State :=
  match slot with
  | none => raise .ctxInvalid cmd s
  | some d =>
    let W := (width d).bits
    let a := s.operand rs
    if 2 ^ W ≤ a then violate .operandRange cmd (drawReg (drawn W) rd) s
    else s.writeResult rd (value d a)

/-- A read-out of a slot's field (R144 to R147, R174 to R177): an empty slot is `CtxInvalid` on both builds; there is no
precondition. -/
def readOut {α : Type} (slot : Option α) (value : α → Nat) (cmd : Cmd) (rd : RegIdx) (s : State) : State :=
  match slot with
  | none => raise .ctxInvalid cmd s
  | some d => s.writeResult rd (value d)

end Sys2Proof.Machine
end

