-- ==== Sys2Proof/Machine/ExactDiv.lean ====
section
/-! DEFINITION. The Exact Divisor (spec/42_exactdiv.md): construction, divisibility test, conditional quotient and read-out. -/

namespace Sys2Proof.Machine

/-- One refinement step, `y' = (y * (2 - y * n)) mod 2^W`: the parenthesis is taken in the integers and the whole product is
reduced once (R161). -/
def refine (W n y : Nat) : Nat := (((y : Int) * (2 - y * n)) % 2 ^ W).toNat

/-- `y_j` of the refinement, from `y_0 = 1` (R161). -/
def refinement (W n : Nat) : Nat → Nat
  | 0 => 1
  | j + 1 => refine W n (refinement W n j)

/-- `ed_inverse(W, n) = y_6`, for odd `n` with `1 <= n < 2^W` (R11, R161). No command applies it to an even `n`. -/
def edInverse (W n : Nat) : Nat := refinement W n Config.newtonIters

/-- `ed_threshold(W, n)` (R163). -/
def edThreshold (W n : Nat) : Nat := (2 ^ W - 1) / n

/-- The instance that a construction without violation stores (R165 to R167). -/
def edInstance (w : WordWidth) (n : Nat) : EdSlot where
  w   := w
  n   := BitVec.ofNat 64 n
  inv := BitVec.ofNat 64 (edInverse w.bits n)
  thr := BitVec.ofNat 64 (edThreshold w.bits n)

/-- The unchecked outcome of a violated construction: the slot becomes full and `n`, `inv`, `thr` are each a fresh
unspecified value of the word width, drawn in this order and once whichever violations hold (R166, R167, R195, log 5). -/
def drawEd (w : WordWidth) (c : SlotIdx) (s : State) : State :=
  let (n, s) := s.draw w.bits
  let (inv, s) := s.draw w.bits
  let (thr, s) := s.draw w.bits
  s.writeEd c { w := w, n := n.setWidth 64, inv := inv.setWidth 64, thr := thr.setWidth 64 }

/-- `EDNEW` at word width `w` (R166, R167): range, zero and even divisor are tested in this order (R195). -/
def edNew (w : WordWidth) (cmd : Cmd) (rs : RegIdx) (c : SlotIdx) (s : State) : State :=
  let n := s.operand rs
  if 2 ^ w.bits ≤ n then violate .operandRange cmd (drawEd w c) s
  else if n = 0 then violate .divisorZero cmd (drawEd w c) s
  else if n % 2 = 0 then violate .divisorEven cmd (drawEd w c) s
  else s.writeEd c (edInstance w n)

/-- `ed_quo(W, inv, k)`: the low `W` bits of the product (R171). It is definite for every `k` (C3). -/
def edQuo (W inv k : Nat) : Nat := k * inv % 2 ^ W

/-- `ed_test(W, inv, thr, k)`: 1 when the wrapped product is at most the threshold, else 0 (R168). -/
def edTest (W inv thr k : Nat) : Nat := if edQuo W inv k ≤ thr then 1 else 0

/-- The verdict an instance gives (R170). -/
def EdSlot.verdict (d : EdSlot) (k : Nat) : Nat := edTest d.w.bits d.inv.toNat d.thr.toNat k

/-- The wrapped product an instance gives (R172). -/
def EdSlot.quotient (d : EdSlot) (k : Nat) : Nat := edQuo d.w.bits d.inv.toNat k

/-- `EDNEW.32` (R166). -/
def execEdnew32 (rs : RegIdx) (c : SlotIdx) (s : State) : Host.Outcome State Fault Refusal :=
  .next (edNew .w32 (encode (.ednew32 rs c)) rs c s)

/-- `EDNEW.64` (R167). -/
def execEdnew64 (rs : RegIdx) (c : SlotIdx) (s : State) : Host.Outcome State Fault Refusal :=
  .next (edNew .w64 (encode (.ednew64 rs c)) rs c s)

/-- `EDTEST` (R170); its unchecked outcome draws one bit. -/
def execEdtest (rd rs : RegIdx) (c : SlotIdx) (s : State) : Host.Outcome State Fault Refusal :=
  .next (query (s.readEd c) (·.w) (fun _ => 1) EdSlot.verdict (encode (.edtest rd rs c)) rd rs s)

/-- `EDQUO` (R172); its unchecked outcome draws `W` bits. That the divisor divides is no precondition. -/
def execEdquo (rd rs : RegIdx) (c : SlotIdx) (s : State) : Host.Outcome State Fault Refusal :=
  .next (query (s.readEd c) (·.w) (fun W => W) EdSlot.quotient (encode (.edquo rd rs c)) rd rs s)

/-- `EDRD.N` (R174). -/
def execEdrdN (rd : RegIdx) (c : SlotIdx) (s : State) : Host.Outcome State Fault Refusal :=
  .next (readOut (s.readEd c) (·.n.toNat) (encode (.edrdN rd c)) rd s)

/-- `EDRD.INV` (R175). -/
def execEdrdInv (rd : RegIdx) (c : SlotIdx) (s : State) : Host.Outcome State Fault Refusal :=
  .next (readOut (s.readEd c) (·.inv.toNat) (encode (.edrdInv rd c)) rd s)

/-- `EDRD.THR` (R176). -/
def execEdrdThr (rd : RegIdx) (c : SlotIdx) (s : State) : Host.Outcome State Fault Refusal :=
  .next (readOut (s.readEd c) (·.thr.toNat) (encode (.edrdThr rd c)) rd s)

/-- `EDRD.W` (R177): the number of bits, 32 or 64. -/
def execEdrdW (rd : RegIdx) (c : SlotIdx) (s : State) : Host.Outcome State Fault Refusal :=
  .next (readOut (s.readEd c) (·.w.bits) (encode (.edrdW rd c)) rd s)

end Sys2Proof.Machine
end

