-- ==== Sys2Proof/Machine/BitScan.lean ====
section
/-! DEFINITION. The bit-scan functions and commands (spec/40_bitscan.md). Bit `j` of `v` is `v.testBit j` (spec/00_scope.md R12). -/

namespace Sys2Proof.Machine

/-- The number of set bits of `v` below position `n`. -/
def setBitsBelow (v : Nat) : Nat → Nat
  | 0 => 0
  | n + 1 => setBitsBelow v n + (v.testBit n).toNat

/-- The largest `j < n` with bit `j` of `v` equal to 1; meant for a `v` that has one. -/
def highestSetBit (v : Nat) : Nat → Nat
  | 0 => 0
  | n + 1 => if v.testBit n then n else highestSetBit v n

/-- The smallest `j < n` with bit `j` of `v` equal to 1; meant for a `v` that has one. -/
def lowestSetBit (v : Nat) : Nat → Nat
  | 0 => 0
  | n + 1 => if v.testBit 0 then 0 else lowestSetBit (v / 2) n + 1

/-- `popcount_N(v)` (R101). -/
def popcount (N v : Nat) : Nat := setBitsBelow v N

/-- `clz_N(v) = N - 1 - h`, `h` the position of the highest set bit (R102). No command applies it to 0 (R100). -/
def clz (N v : Nat) : Nat := N - 1 - highestSetBit v N

/-- `ctz_N(v)`, the position of the lowest set bit (R103). No command applies it to 0. -/
def ctz (N v : Nat) : Nat := lowestSetBit v N

/-- `ilog2_N(v) = (N - 1) - clz_N(v)` (R104). No command applies it to 0. -/
def ilog2 (N v : Nat) : Nat := (N - 1) - clz N v

/-- The high half, `v[127:64]` (R12). -/
def highHalf (v : Nat) : Nat := v / 2 ^ Config.nativeWidth % 2 ^ Config.nativeWidth

/-- The low half, `v[63:0]` (R12). -/
def lowHalf (v : Nat) : Nat := v % 2 ^ Config.nativeWidth

/-- The double-width population count: the sum of the halves' counts (R105). -/
def popcount128 (v : Nat) : Nat := popcount 64 (highHalf v) + popcount 64 (lowHalf v)

/-- The double-width leading zero count: the high half first (R106). -/
def clz128 (v : Nat) : Nat := if highHalf v ≠ 0 then clz 64 (highHalf v) else 64 + clz 64 (lowHalf v)

/-- The double-width trailing zero count: the low half first (R107). -/
def ctz128 (v : Nat) : Nat := if lowHalf v ≠ 0 then ctz 64 (lowHalf v) else 64 + ctz 64 (highHalf v)

/-- `ilog2_128 = 127 - clz_128`, with `clz_128` by halves (R119). -/
def ilog2_128 (v : Nat) : Nat := 127 - clz128 v

/-- The template of every bit-scan command, with `F` its function (R100). The unchecked outcome of either violation is a
drawn 32-bit count. -/
def scan (N : Nat) (F : Nat → Nat) (needsNonzero : Bool) (cmd : Cmd) (rd rs : RegIdx) (s : State) : State :=
  let v := s.operand rs
  if 2 ^ N ≤ v then violate .operandRange cmd (drawReg 32 rd) s
  else if needsNonzero ∧ v = 0 then violate .zeroInput cmd (drawReg 32 rd) s
  else s.writeResult rd (F v)

/-- `POPCNT.32` (R108). -/
def execPopcnt32 (rd rs : RegIdx) (s : State) : Host.Outcome State Fault Refusal :=
  .next (scan 32 (popcount 32) false (encode (.popcnt32 rd rs)) rd rs s)

/-- `POPCNT.64` (R109). -/
def execPopcnt64 (rd rs : RegIdx) (s : State) : Host.Outcome State Fault Refusal :=
  .next (scan 64 (popcount 64) false (encode (.popcnt64 rd rs)) rd rs s)

/-- `POPCNT.128` (R110): every register value is in range. -/
def execPopcnt128 (rd rs : RegIdx) (s : State) : Host.Outcome State Fault Refusal :=
  .next (scan 128 popcount128 false (encode (.popcnt128 rd rs)) rd rs s)

/-- `CLZ.32` (R111). -/
def execClz32 (rd rs : RegIdx) (s : State) : Host.Outcome State Fault Refusal :=
  .next (scan 32 (clz 32) true (encode (.clz32 rd rs)) rd rs s)

/-- `CLZ.64` (R112). -/
def execClz64 (rd rs : RegIdx) (s : State) : Host.Outcome State Fault Refusal :=
  .next (scan 64 (clz 64) true (encode (.clz64 rd rs)) rd rs s)

/-- `CLZ.128` (R113). -/
def execClz128 (rd rs : RegIdx) (s : State) : Host.Outcome State Fault Refusal :=
  .next (scan 128 clz128 true (encode (.clz128 rd rs)) rd rs s)

/-- `CTZ.32` (R114). -/
def execCtz32 (rd rs : RegIdx) (s : State) : Host.Outcome State Fault Refusal :=
  .next (scan 32 (ctz 32) true (encode (.ctz32 rd rs)) rd rs s)

/-- `CTZ.64` (R115). -/
def execCtz64 (rd rs : RegIdx) (s : State) : Host.Outcome State Fault Refusal :=
  .next (scan 64 (ctz 64) true (encode (.ctz64 rd rs)) rd rs s)

/-- `CTZ.128` (R116). -/
def execCtz128 (rd rs : RegIdx) (s : State) : Host.Outcome State Fault Refusal :=
  .next (scan 128 ctz128 true (encode (.ctz128 rd rs)) rd rs s)

/-- `ILOG2.32` (R117). -/
def execIlog2_32 (rd rs : RegIdx) (s : State) : Host.Outcome State Fault Refusal :=
  .next (scan 32 (ilog2 32) true (encode (.ilog2_32 rd rs)) rd rs s)

/-- `ILOG2.64` (R118). -/
def execIlog2_64 (rd rs : RegIdx) (s : State) : Host.Outcome State Fault Refusal :=
  .next (scan 64 (ilog2 64) true (encode (.ilog2_64 rd rs)) rd rs s)

/-- `ILOG2.128` (R119). -/
def execIlog2_128 (rd rs : RegIdx) (s : State) : Host.Outcome State Fault Refusal :=
  .next (scan 128 ilog2_128 true (encode (.ilog2_128 rd rs)) rd rs s)

end Sys2Proof.Machine
end

