-- ==== Sys2Proof/Machine/FastDiv.lean ====
section
/-! DEFINITION. Fast Division (spec/41_fastdiv.md): construction, division, modulo and read-out. Arithmetic is that of the
natural numbers and integers, narrowed where the rules write `mod` (spec/00_scope.md R13, log 12). -/

namespace Sys2Proof.Machine

/-- `fd_construct(W, m)`, the pair `(mul, shamt)`, for `1 <= m < 2^W` (R131). The case `m = 1` is special (R132). -/
def fdConstruct (W m : Nat) : Nat × Nat :=
  if m = 1 then (1, 0)
  else
    let shamt := ilog2 W (m - 1) + W
    ((2 ^ shamt + m - 1) / m, shamt)

/-- The instance that a construction without violation stores (R134, R135). -/
def fdInstance (w : WordWidth) (m : Nat) : FdSlot where
  w     := w
  m     := BitVec.ofNat 64 m
  mul   := BitVec.ofNat 64 (fdConstruct w.bits m).1
  shamt := BitVec.ofNat 7 (fdConstruct w.bits m).2

/-- The unchecked outcome of a violated construction: the slot becomes full and `m`, `mul`, `shamt` are each a fresh
unspecified value of its width, drawn in this order (R134, R135, log 5). -/
def drawFd (w : WordWidth) (c : SlotIdx) (s : State) : State :=
  let (m, s) := s.draw w.bits
  let (mul, s) := s.draw w.bits
  let (shamt, s) := s.draw 7
  s.writeFd c { w := w, m := m.setWidth 64, mul := mul.setWidth 64, shamt := shamt }

/-- `FDNEW` at word width `w` (R134, R135): the range is tested first, then the zero divisor (R195). A full slot is replaced
(R29). -/
def fdNew (w : WordWidth) (cmd : Cmd) (rs : RegIdx) (c : SlotIdx) (s : State) : State :=
  let m := s.operand rs
  if 2 ^ w.bits ≤ m then violate .operandRange cmd (drawFd w c) s
  else if m = 0 then violate .divisorZero cmd (drawFd w c) s
  else s.writeFd c (fdInstance w m)

/-- `fd_div(W, mul, shamt, a)` (R136): the full product, a logical right shift, and the low `W` bits. -/
def fdDiv (W mul shamt a : Nat) : Nat := (a * mul) >>> shamt % 2 ^ W

/-- `fd_mod(W, m, mul, shamt, a)` (R141): the difference is taken in the integers and reduced `mod 2^W`. -/
def fdMod (W m mul shamt a : Nat) : Nat := (((a : Int) - fdDiv W mul shamt a * m) % 2 ^ W).toNat

/-- The quotient an instance gives (R137). -/
def FdSlot.quotient (d : FdSlot) (a : Nat) : Nat := fdDiv d.w.bits d.mul.toNat d.shamt.toNat a

/-- The remainder an instance gives (R142). -/
def FdSlot.remainder (d : FdSlot) (a : Nat) : Nat := fdMod d.w.bits d.m.toNat d.mul.toNat d.shamt.toNat a

/-- `FDNEW.32` (R134). -/
def execFdnew32 (rs : RegIdx) (c : SlotIdx) (s : State) : Host.Outcome State Fault Refusal :=
  .next (fdNew .w32 (encode (.fdnew32 rs c)) rs c s)

/-- `FDNEW.64` (R135). -/
def execFdnew64 (rs : RegIdx) (c : SlotIdx) (s : State) : Host.Outcome State Fault Refusal :=
  .next (fdNew .w64 (encode (.fdnew64 rs c)) rs c s)

/-- `FDDIV` (R137); its unchecked outcome draws `W` bits. -/
def execFddiv (rd rs : RegIdx) (c : SlotIdx) (s : State) : Host.Outcome State Fault Refusal :=
  .next (query (s.readFd c) (·.w) (fun W => W) FdSlot.quotient (encode (.fddiv rd rs c)) rd rs s)

/-- `FDMOD` (R142); its unchecked outcome draws `W` bits. -/
def execFdmod (rd rs : RegIdx) (c : SlotIdx) (s : State) : Host.Outcome State Fault Refusal :=
  .next (query (s.readFd c) (·.w) (fun W => W) FdSlot.remainder (encode (.fdmod rd rs c)) rd rs s)

/-- `FDRD.M` (R144). -/
def execFdrdM (rd : RegIdx) (c : SlotIdx) (s : State) : Host.Outcome State Fault Refusal :=
  .next (readOut (s.readFd c) (·.m.toNat) (encode (.fdrdM rd c)) rd s)

/-- `FDRD.MUL` (R145). -/
def execFdrdMul (rd : RegIdx) (c : SlotIdx) (s : State) : Host.Outcome State Fault Refusal :=
  .next (readOut (s.readFd c) (·.mul.toNat) (encode (.fdrdMul rd c)) rd s)

/-- `FDRD.SHAMT` (R146). -/
def execFdrdShamt (rd : RegIdx) (c : SlotIdx) (s : State) : Host.Outcome State Fault Refusal :=
  .next (readOut (s.readFd c) (·.shamt.toNat) (encode (.fdrdShamt rd c)) rd s)

/-- `FDRD.W` (R147): the number of bits, 32 or 64, not the selector. -/
def execFdrdW (rd : RegIdx) (c : SlotIdx) (s : State) : Host.Outcome State Fault Refusal :=
  .next (readOut (s.readFd c) (·.w.bits) (encode (.fdrdW rd c)) rd s)

end Sys2Proof.Machine
end

