-- ==== Sys2Proof/Machine/Dispatch.lean ====
section
/-! DEFINITION. Which meaning each command has: the column "rule" of the opcode map (spec/30_encoding.md R78). -/

namespace Sys2Proof.Machine

/-- The command's rule is carried out (R79). Whether the block is running is tested before, by `issue` (R56, log 9). -/
def exec (i : Instr) (s : State) : Host.Outcome State Fault Refusal :=
  match i with
  | .popcnt32 rd rs => Sys2Proof.Machine.execPopcnt32 rd rs s
  | .popcnt64 rd rs => Sys2Proof.Machine.execPopcnt64 rd rs s
  | .popcnt128 rd rs => Sys2Proof.Machine.execPopcnt128 rd rs s
  | .clz32 rd rs => Sys2Proof.Machine.execClz32 rd rs s
  | .clz64 rd rs => Sys2Proof.Machine.execClz64 rd rs s
  | .clz128 rd rs => Sys2Proof.Machine.execClz128 rd rs s
  | .ctz32 rd rs => Sys2Proof.Machine.execCtz32 rd rs s
  | .ctz64 rd rs => Sys2Proof.Machine.execCtz64 rd rs s
  | .ctz128 rd rs => Sys2Proof.Machine.execCtz128 rd rs s
  | .ilog2_32 rd rs => Sys2Proof.Machine.execIlog2_32 rd rs s
  | .ilog2_64 rd rs => Sys2Proof.Machine.execIlog2_64 rd rs s
  | .ilog2_128 rd rs => Sys2Proof.Machine.execIlog2_128 rd rs s
  | .fdnew32 rs c => Sys2Proof.Machine.execFdnew32 rs c s
  | .fdnew64 rs c => Sys2Proof.Machine.execFdnew64 rs c s
  | .fddiv rd rs c => Sys2Proof.Machine.execFddiv rd rs c s
  | .fdmod rd rs c => Sys2Proof.Machine.execFdmod rd rs c s
  | .fdrdM rd c => Sys2Proof.Machine.execFdrdM rd c s
  | .fdrdMul rd c => Sys2Proof.Machine.execFdrdMul rd c s
  | .fdrdShamt rd c => Sys2Proof.Machine.execFdrdShamt rd c s
  | .fdrdW rd c => Sys2Proof.Machine.execFdrdW rd c s
  | .ednew32 rs c => Sys2Proof.Machine.execEdnew32 rs c s
  | .ednew64 rs c => Sys2Proof.Machine.execEdnew64 rs c s
  | .edtest rd rs c => Sys2Proof.Machine.execEdtest rd rs c s
  | .edquo rd rs c => Sys2Proof.Machine.execEdquo rd rs c s
  | .edrdN rd c => Sys2Proof.Machine.execEdrdN rd c s
  | .edrdInv rd c => Sys2Proof.Machine.execEdrdInv rd c s
  | .edrdThr rd c => Sys2Proof.Machine.execEdrdThr rd c s
  | .edrdW rd c => Sys2Proof.Machine.execEdrdW rd c s

end Sys2Proof.Machine
end

