-- ==== Sys2Proof/Machine/Transactions.lean ====
section
/-! DEFINITION. The five host transactions (spec/20_memory.md R52 to R57) and where the next one comes from. -/

namespace Sys2Proof.Machine

/-- `HostWriteReg(j, v)`: discarded while halted (R53, R197). -/
def hostWriteReg (j : RegIdx) (v : Word) (s : State) : State := if s.halted then s else s.writeReg j v

/-- `HostReadReg(j)` returns `x[j]`, running or halted, and changes nothing (R54). -/
def hostReadReg (j : RegIdx) (s : State) : State := { s with returned := s.returned ++ [.reg (s.readReg j)] }

/-- `HostReadCtl(j)` returns the control register, running or halted, and changes nothing (R55). -/
def hostReadCtl (j : BitVec 32) (s : State) : State := { s with returned := s.returned ++ [.ctl (s.readCtl j)] }

/-- `Issue(cmd)` (R56): discarded undecoded while halted (R197); an illegal word raises `IllegalCommand` on both builds (R80);
otherwise the command's rule is carried out. -/
def issue (cmd : Cmd) (s : State) : Host.Outcome State Fault Refusal :=
  if s.halted then .next s
  else
    match decode cmd with
    | .ok i => exec i s
    | .error .illegalCommand => .next (raise .illegalCommand cmd s)

/-- One host transaction, from its beginning to its end (R52). -/
def transact (t : Transaction) (s : State) : Host.Outcome State Fault Refusal :=
  match t with
  | .hostWriteReg j v => .next (hostWriteReg j v s)
  | .hostReadReg j => .next (hostReadReg j s)
  | .hostReadCtl j => .next (hostReadCtl j s)
  | .issue cmd => issue cmd s
  | .reset => .next s.resetBlock

/-- The host performs its next transaction, in issue order (R61). With none left the block waits and nothing changes
(spec/70_reset_and_hazards.md R222, log 3). -/
def nextTransaction (s : State) : Host.Outcome State Fault Refusal :=
  match s.pending with
  | [] => .next s
  | t :: rest => transact t { s with pending := rest }

/-- The command placed as the host's very next transaction (log 2, log 16). -/
def State.withNextCommand (s : State) (cmd : Cmd) : State := { s with pending := .issue cmd :: s.pending }

end Sys2Proof.Machine
end

