-- ==== Sys2Proof/Machine/Step.lean ====
section
/-! DEFINITION. One step of the machine: one host transaction (spec/20_memory.md R52, R61). -/

namespace Sys2Proof.Machine

/-- One step: the host's next transaction. The outcome is always a next state (log 7). -/
def step (s : State) : Host.Outcome State Fault Refusal := nextTransaction s

/-- `s` with the command of the table word `w` as the host's next transaction; nothing else changes (log 2, log 16). -/
def State.withFetchWord (s : State) (nbits w : Nat) : State := s.withNextCommand (tableWord nbits w)

end Sys2Proof.Machine
end

