-- ==== Sys2Proof/Machine/Assembler.lean ====
section
/-! DEFINITION. The assembler syntax (spec/30_encoding.md R83, R84): commands and host transactions as text. It binds tools,
not the block; no step uses it. What R83 leaves open is in log 13. -/

namespace Sys2Proof.Asm

/-- An operand: `x0` to `x15`, `fd[c]` or `ed[c]` (R83). -/
inductive Operand where
  | reg (r : RegIdx)
  | fd (c : SlotIdx)
  | ed (c : SlotIdx)
  deriving DecidableEq, Repr

/-- One command line: "destination first, then source, then slot" (R83). -/
structure Line where
  mnemonic : String
  operands : List Operand
  deriving DecidableEq, Repr

/-- The line of a command (R83); the mnemonics are those of R78. -/
def disassemble : Instr → Line
  | .popcnt32 rd rs   => ⟨"POPCNT.32", [.reg rd, .reg rs]⟩
  | .popcnt64 rd rs   => ⟨"POPCNT.64", [.reg rd, .reg rs]⟩
  | .popcnt128 rd rs  => ⟨"POPCNT.128", [.reg rd, .reg rs]⟩
  | .clz32 rd rs      => ⟨"CLZ.32", [.reg rd, .reg rs]⟩
  | .clz64 rd rs      => ⟨"CLZ.64", [.reg rd, .reg rs]⟩
  | .clz128 rd rs     => ⟨"CLZ.128", [.reg rd, .reg rs]⟩
  | .ctz32 rd rs      => ⟨"CTZ.32", [.reg rd, .reg rs]⟩
  | .ctz64 rd rs      => ⟨"CTZ.64", [.reg rd, .reg rs]⟩
  | .ctz128 rd rs     => ⟨"CTZ.128", [.reg rd, .reg rs]⟩
  | .ilog2_32 rd rs   => ⟨"ILOG2.32", [.reg rd, .reg rs]⟩
  | .ilog2_64 rd rs   => ⟨"ILOG2.64", [.reg rd, .reg rs]⟩
  | .ilog2_128 rd rs  => ⟨"ILOG2.128", [.reg rd, .reg rs]⟩
  | .fdnew32 rs c     => ⟨"FDNEW.32", [.fd c, .reg rs]⟩
  | .fdnew64 rs c     => ⟨"FDNEW.64", [.fd c, .reg rs]⟩
  | .fddiv rd rs c    => ⟨"FDDIV", [.reg rd, .reg rs, .fd c]⟩
  | .fdmod rd rs c    => ⟨"FDMOD", [.reg rd, .reg rs, .fd c]⟩
  | .fdrdM rd c       => ⟨"FDRD.M", [.reg rd, .fd c]⟩
  | .fdrdMul rd c     => ⟨"FDRD.MUL", [.reg rd, .fd c]⟩
  | .fdrdShamt rd c   => ⟨"FDRD.SHAMT", [.reg rd, .fd c]⟩
  | .fdrdW rd c       => ⟨"FDRD.W", [.reg rd, .fd c]⟩
  | .ednew32 rs c     => ⟨"EDNEW.32", [.ed c, .reg rs]⟩
  | .ednew64 rs c     => ⟨"EDNEW.64", [.ed c, .reg rs]⟩
  | .edtest rd rs c   => ⟨"EDTEST", [.reg rd, .reg rs, .ed c]⟩
  | .edquo rd rs c    => ⟨"EDQUO", [.reg rd, .reg rs, .ed c]⟩
  | .edrdN rd c       => ⟨"EDRD.N", [.reg rd, .ed c]⟩
  | .edrdInv rd c     => ⟨"EDRD.INV", [.reg rd, .ed c]⟩
  | .edrdThr rd c     => ⟨"EDRD.THR", [.reg rd, .ed c]⟩
  | .edrdW rd c       => ⟨"EDRD.W", [.reg rd, .ed c]⟩

/-- The command of a line; a mnemonic of no row of R78 or operands of another shape give none, and there are no
pseudo-instructions (R84). -/
def assemble (l : Line) : Option Instr :=
  match l.operands with
  | [.reg rd, .reg rs] =>
    match l.mnemonic with
    | "POPCNT.32" => some (.popcnt32 rd rs)
    | "POPCNT.64" => some (.popcnt64 rd rs)
    | "POPCNT.128" => some (.popcnt128 rd rs)
    | "CLZ.32" => some (.clz32 rd rs)
    | "CLZ.64" => some (.clz64 rd rs)
    | "CLZ.128" => some (.clz128 rd rs)
    | "CTZ.32" => some (.ctz32 rd rs)
    | "CTZ.64" => some (.ctz64 rd rs)
    | "CTZ.128" => some (.ctz128 rd rs)
    | "ILOG2.32" => some (.ilog2_32 rd rs)
    | "ILOG2.64" => some (.ilog2_64 rd rs)
    | "ILOG2.128" => some (.ilog2_128 rd rs)
    | _ => none
  | [.fd c, .reg rs] =>
    match l.mnemonic with
    | "FDNEW.32" => some (.fdnew32 rs c)
    | "FDNEW.64" => some (.fdnew64 rs c)
    | _ => none
  | [.ed c, .reg rs] =>
    match l.mnemonic with
    | "EDNEW.32" => some (.ednew32 rs c)
    | "EDNEW.64" => some (.ednew64 rs c)
    | _ => none
  | [.reg rd, .reg rs, .fd c] =>
    match l.mnemonic with
    | "FDDIV" => some (.fddiv rd rs c)
    | "FDMOD" => some (.fdmod rd rs c)
    | _ => none
  | [.reg rd, .reg rs, .ed c] =>
    match l.mnemonic with
    | "EDTEST" => some (.edtest rd rs c)
    | "EDQUO" => some (.edquo rd rs c)
    | _ => none
  | [.reg rd, .fd c] =>
    match l.mnemonic with
    | "FDRD.M" => some (.fdrdM rd c)
    | "FDRD.MUL" => some (.fdrdMul rd c)
    | "FDRD.SHAMT" => some (.fdrdShamt rd c)
    | "FDRD.W" => some (.fdrdW rd c)
    | _ => none
  | [.reg rd, .ed c] =>
    match l.mnemonic with
    | "EDRD.N" => some (.edrdN rd c)
    | "EDRD.INV" => some (.edrdInv rd c)
    | "EDRD.THR" => some (.edrdThr rd c)
    | "EDRD.W" => some (.edrdW rd c)
    | _ => none
  | _ => none

/-- The text of an operand. -/
def Operand.text : Operand → String
  | .reg r => "x" ++ toString r.val
  | .fd c => "fd[" ++ toString c.val ++ "]"
  | .ed c => "ed[" ++ toString c.val ++ "]"

/-- The text of a line. -/
def Line.text (l : Line) : String := l.mnemonic ++ " " ++ ", ".intercalate (l.operands.map Operand.text)

/-- The text of a host transaction: `WR`, `RD`, `RDCTL`, `RESET`, or the line of the issued command (R83). A word that is no
command and a control register without a name have no text. -/
def transactionText : Transaction → Option String
  | .hostWriteReg j v => some ("WR " ++ (Operand.reg j).text ++ ", " ++ toString v.toNat)
  | .hostReadReg j => some ("RD " ++ (Operand.reg j).text)
  | .hostReadCtl j =>
    if j = 0 then some "RDCTL ID" else if j = 1 then some "RDCTL STATUS" else if j = 2 then some "RDCTL FCMD" else none
  | .issue cmd => (decode cmd).toOption.map fun i => (disassemble i).text
  | .reset => some "RESET"

/-- The value of a digit in base 10 or 16. -/
def digit (base : Nat) (ch : Char) : Option Nat :=
  let n := ch.toNat
  let v :=
    if 48 ≤ n ∧ n ≤ 57 then n - 48
    else if 65 ≤ n ∧ n ≤ 70 then n - 55
    else if 97 ≤ n ∧ n ≤ 102 then n - 87
    else base
  if v < base then some v else none

/-- The value of the digits that follow a number read so far. -/
def digits (base : Nat) : List Char → Nat → Option Nat
  | [], sofar => some sofar
  | ch :: rest, sofar =>
    match digit base ch with
    | some d => digits base rest (base * sofar + d)
    | none => none

/-- "a decimal or `0x`-prefixed number" (R83). -/
def number : List Char → Option Nat
  | [] => none
  | '0' :: 'x' :: [] => none
  | '0' :: 'x' :: rest => digits 16 rest 0
  | cs => digits 10 cs 0

/-- A number below `bound`. -/
def index (bound : Nat) (cs : List Char) : Option (Fin bound) :=
  match number cs with
  | some n => if h : n < bound then some ⟨n, h⟩ else none
  | none => none

/-- What stands before the closing bracket at the end of a text. -/
def beforeBracket : List Char → Option (List Char)
  | [] => none
  | [ch] => if ch = ']' then some [] else none
  | ch :: rest => (beforeBracket rest).map (ch :: ·)

/-- Reads an operand; a register's number is decimal (R83). -/
def readOperand : List Char → Option Operand
  | 'x' :: [] => none
  | 'x' :: cs => (digits 10 cs 0).bind fun n => if h : n < 16 then some (.reg ⟨n, h⟩) else none
  | 'f' :: 'd' :: '[' :: cs => (beforeBracket cs).bind fun cs => (index 256 cs).map .fd
  | 'e' :: 'd' :: '[' :: cs => (beforeBracket cs).bind fun cs => (index 256 cs).map .ed
  | _ => none

/-- A space, a tab or a carriage return. -/
def blank (ch : Char) : Bool := ch = ' ' || ch = '\t' || ch = '\r'

/-- Takes the blanks off both ends. -/
def trim (cs : List Char) : List Char := ((cs.dropWhile blank).reverse.dropWhile blank).reverse

/-- The pieces of a text between the places where `sep` stands. -/
def pieces (sep : Char) : List Char → List (List Char)
  | [] => [[]]
  | ch :: rest =>
    if ch = sep then [] :: pieces sep rest
    else
      match pieces sep rest with
      | [] => [[ch]]
      | p :: ps => (ch :: p) :: ps

/-- A line without its comment: "a `#` starts a comment to the end of the line" (R83). -/
def withoutComment (cs : List Char) : List Char := trim (cs.takeWhile (· ≠ '#'))

/-- The first word of a line and the operands' texts after it. -/
def splitLine (cs : List Char) : List Char × List (List Char) :=
  let rest := trim (cs.dropWhile fun ch => !blank ch)
  (cs.takeWhile fun ch => !blank ch, if rest = [] then [] else (pieces ',' rest).map trim)

/-- Reads one line that is not empty: a host transaction by its name, or a command, which the host issues (R83). -/
def readTransaction (cs : List Char) : Option Transaction :=
  let (word, args) := splitLine cs
  match String.ofList word, args with
  | "RESET", [] => some .reset
  | "WR", [r, v] =>
    match readOperand r, number v with
    | some (.reg j), some n => if n < 2 ^ 128 then some (.hostWriteReg j (BitVec.ofNat 128 n)) else none
    | _, _ => none
  | "RD", [r] =>
    match readOperand r with
    | some (.reg j) => some (.hostReadReg j)
    | _ => none
  | "RDCTL", [name] =>
    match String.ofList name with
    | "ID" => some (.hostReadCtl 0)
    | "STATUS" => some (.hostReadCtl 1)
    | "FCMD" => some (.hostReadCtl 2)
    | _ => none
  | mnemonic, args => (args.mapM readOperand).bind fun ops => (assemble ⟨mnemonic, ops⟩).map fun i => .issue (encode i)

/-- Reads a listing, one transaction a line; an empty line stands for nothing (R27, R83). -/
def readListing (text : String) : Option (List Transaction) :=
  (((pieces '\n' text.toList).map withoutComment).filter (· ≠ [])).mapM readTransaction

end Sys2Proof.Asm
end

