-- ==== Sys2Proof/Safety.lean ====
section
/-! DEFINITION. What a run is and when it has gone right (spec/70_reset_and_hazards.md R229), which command can raise which
fault (spec/60_exceptions.md R192), and the invariants of the state (spec/10_state.md R24 to R26, R32, R33, R37). -/

namespace Sys2Proof.Machine

/-- A run: a finite list of host transactions applied in issue order (R61, R229). It ends when the list is exhausted. -/
def runList : List Transaction → State → Host.Outcome State Fault Refusal
  | [], s => .next s
  | t :: rest, s =>
    match transact t s with
    | .next s' => runList rest s'
    | .fault r => .fault r
    | .refused r => .refused r

/-- A run that ends in this state "has gone right if `STATUS.FAULT = 0` at the end" (R229). -/
def State.goneRight (s : State) : Prop := s.halted = false

/-- The causes a legal command can raise on a build, row by row of the table of R192: "checked" there is `precondition` here. -/
def raisable (checked : Bool) (i : Instr) : List Cause :=
  let precondition (l : List Cause) : List Cause := if checked then l else []
  match i with
  | .popcnt32 _ _ | .popcnt64 _ _ => precondition [.operandRange]
  | .popcnt128 _ _ => []
  | .clz32 _ _ | .clz64 _ _ | .ctz32 _ _ | .ctz64 _ _ => precondition [.operandRange, .zeroInput]
  | .ilog2_32 _ _ | .ilog2_64 _ _ => precondition [.operandRange, .zeroInput]
  | .clz128 _ _ | .ctz128 _ _ | .ilog2_128 _ _ => precondition [.zeroInput]
  | .fdnew32 _ _ | .fdnew64 _ _ => precondition [.operandRange, .divisorZero]
  | .fddiv _ _ _ | .fdmod _ _ _ => .ctxInvalid :: precondition [.operandRange]
  | .fdrdM _ _ | .fdrdMul _ _ | .fdrdShamt _ _ | .fdrdW _ _ => [.ctxInvalid]
  | .ednew32 _ _ | .ednew64 _ _ => precondition [.operandRange, .divisorZero, .divisorEven]
  | .edtest _ _ _ | .edquo _ _ _ => .ctxInvalid :: precondition [.operandRange]
  | .edrdN _ _ | .edrdInv _ _ | .edrdThr _ _ | .edrdW _ _ => [.ctxInvalid]

/-- The numeric fields of a Fast Division slot fit its word width: "`m < 2^W`", "`mul < 2^W`" (R24). It holds of an instance
and of the drawn fields of a violated construction alike. -/
def FdSlot.Fits (d : FdSlot) : Prop := d.m.toNat < 2 ^ d.w.bits ∧ d.mul.toNat < 2 ^ d.w.bits

/-- The numeric fields of an Exact Divisor slot fit its word width (R26). -/
def EdSlot.Fits (d : EdSlot) : Prop :=
  d.n.toNat < 2 ^ d.w.bits ∧ d.inv.toNat < 2 ^ d.w.bits ∧ d.thr.toNat < 2 ^ d.w.bits

/-- What a Fast Division slot written by a construction without violation satisfies (R25), with `h` the position of the highest
set bit of `m - 1` (R104) and the multiplier the least number whose product with `m` reaches `2^shamt`, its ceiling. -/
structure FdSlot.Valid (d : FdSlot) : Prop where
  divisor_pos : 1 ≤ d.m.toNat
  divisor_lt  : d.m.toNat < 2 ^ d.w.bits
  one         : d.m.toNat = 1 → d.mul.toNat = 1 ∧ d.shamt.toNat = 0
  shift       : 1 < d.m.toNat → ∃ h, d.shamt.toNat = h + d.w.bits ∧ 2 ^ h ≤ d.m.toNat - 1 ∧ d.m.toNat - 1 < 2 ^ (h + 1)
  ceiling     : 2 ^ d.shamt.toNat ≤ d.mul.toNat * d.m.toNat ∧ d.mul.toNat * d.m.toNat < 2 ^ d.shamt.toNat + d.m.toNat
  mul_pos     : 1 ≤ d.mul.toNat
  mul_lt      : d.mul.toNat < 2 ^ d.w.bits

/-- What an Exact Divisor slot written by a construction without violation satisfies (R37). -/
structure EdSlot.Valid (d : EdSlot) : Prop where
  divisor_odd : d.n.toNat % 2 = 1
  divisor_lt  : d.n.toNat < 2 ^ d.w.bits
  inverse     : d.n.toNat * d.inv.toNat % 2 ^ d.w.bits = 1
  inv_odd     : d.inv.toNat % 2 = 1
  inv_lt      : d.inv.toNat < 2 ^ d.w.bits
  threshold   : d.thr.toNat = (2 ^ d.w.bits - 1) / d.n.toNat
  thr_pos     : 1 ≤ d.thr.toNat

/-- Every full slot's fields fit its word width (R24, R26). -/
def State.SlotsFit (s : State) : Prop :=
  (∀ c d, s.readFd c = some d → d.Fits) ∧ (∀ c d, s.readEd c = some d → d.Fits)

/-- Every full slot holds what a construction without violation stores (R25, R37). -/
def State.SlotsValid (s : State) : Prop :=
  (∀ c d, s.readFd c = some d → d.Valid) ∧ (∀ c d, s.readEd c = some d → d.Valid)

/-- `FCMD` is a word whose execution raises `cause` on this build (R33, R191, R192). -/
def Explains (checked : Bool) (cause : Cause) (fcmd : Cmd) : Prop :=
  match decode fcmd with
  | .ok i => cause ∈ raisable checked i
  | .error .illegalCommand => cause = .illegalCommand

/-- The control registers hold legal values (R32, R33): both 0 while the block runs; after a fault `STATUS` is that of one
cause, its reserved bits 0, and `FCMD` is a word that raises it. -/
def State.ControlLegal (s : State) : Prop :=
  (s.status = 0 ∧ s.fcmd = 0) ∨ ∃ cause, s.status = statusOf cause ∧ Explains s.checked cause s.fcmd

end Sys2Proof.Machine
end

