-- ==== Sys2Proof/Certificates/Slice0/Obligations.lean ====
section
/-! DEFINITION. The statements for the provers, from the numbered rules of spec/. A value named by `Config.unspec` stands for
any value: it has no body, and no statement rests on what it is. Statements quantify over every state, and so over both
values of `CHECKED` (log 1). -/

open Sys2Proof Sys2Proof.Machine

/-! ### Encoding (spec/30_encoding.md) -/

/-- R71, R74, R76 to R78: decoding the word of a command gives the command back, with every operand. -/
def Obligations.DecodeOfEncode : Prop :=
  ∀ i : Instr, decode (encode i) = .ok i

/-- R71, R77 to R79: a legal word is the word of the command it decodes to, so no bit of it is dropped, and `FCMD`, which fault
entry fills with the word of the command, holds the issued word (log 8). -/
def Obligations.EncodeOfDecode : Prop :=
  ∀ (cmd : Cmd) (i : Instr), decode cmd = .ok i → encode i = cmd

/-- R79: the 28 rows are tested by mask and match; no two match one word; a row that matches gives the command with the fields
of R71, whose rule is carried out when the block runs; a word that no row matches is illegal. -/
def Obligations.DecodingTestsTheRows : Prop :=
  opcodeMap.length = 28 ∧
  (∀ r ∈ opcodeMap, ∀ cmd, r.matches cmd = true ↔ cmd &&& r.mask = r.pattern) ∧
  opcodeMap.Pairwise (fun a b => ∀ cmd, ¬ (a.matches cmd = true ∧ b.matches cmd = true)) ∧
  (∀ r ∈ opcodeMap, ∀ cmd, r.matches cmd = true → decode cmd = .ok (r.instr (.ofWord cmd)) ∧
    ∀ s : State, s.halted = false → issue cmd s = exec (r.instr (.ofWord cmd)) s) ∧
  (∀ cmd, (∀ r ∈ opcodeMap, r.matches cmd = false) → decode cmd = .error .illegalCommand)

/-- R72 to R77, R80: the words that decode are exactly those whose fields pass the checks of the prose. -/
def Obligations.LegalWordsHaveLegalFields : Prop :=
  ∀ cmd : Cmd, (∃ i, decode cmd = .ok i) ↔ (CmdFields.ofWord cmd).wellFormed = true

/-- R80: of the `2^32` words exactly 314368 are legal. -/
def Obligations.LegalWordCount : Prop :=
  ∃ l : List Cmd, l.Nodup ∧ l.length = 314368 ∧ ∀ cmd, cmd ∈ l ↔ ∃ i, decode cmd = .ok i

/-- R56, R80, R191, R196: an illegal word raises `IllegalCommand` on both builds and changes nothing else; the all-zero and the
all-one word are illegal. -/
def Obligations.IllegalWordRaises : Prop :=
  (∀ (s : State) (cmd : Cmd), s.halted = false → (CmdFields.ofWord cmd).wellFormed = false →
    issue cmd s = .next { s with status := 0x00000101, fcmd := cmd }) ∧
  (CmdFields.ofWord 0x00000000).wellFormed = false ∧ (CmdFields.ofWord 0xFFFFFFFF).wellFormed = false

/-- R83 and spec/95_test_vectors.md section 5: words written out from the encoding decode to their commands, and illegal ones
to none. -/
def Obligations.WrittenOutWordsDecode : Prop :=
  decode 0x02131000 = .ok (.clz64 3 1) ∧ decode 0x012FF000 = .ok (.popcnt128 15 15) ∧
  decode 0x1010F0FF = .ok (.fdnew64 15 255) ∧ decode 0x120FE0C8 = .ok (.fdmod 15 14 200) ∧
  decode 0x13050200 = .ok (.fdrdShamt 5 0) ∧ decode 0x21042007 = .ok (.edtest 4 2 7) ∧
  decode 0x23090207 = .ok (.edrdThr 9 7) ∧
  decode 0x02331000 = .error .illegalCommand ∧ decode 0x10031000 = .error .illegalCommand ∧
  decode 0x13051000 = .error .illegalCommand

/-- R58, R70: the layout tools use has byte `b` of a value at place `b`, loses nothing, and a command's four bytes decode to the
command. It binds tools only. -/
def Obligations.ToolLayoutIsLittleEndian : Prop :=
  (∀ (n : Nat) (v : BitVec (8 * n)), (layout n v).length = n ∧
    (∀ b, b < n → (layout n v)[b]? = some (v.extractLsb' (8 * b) 8)) ∧ layoutValue (layout n v) = v.toNat) ∧
  ∀ (cmd : Cmd) (rest : List Byte), decodeBytes (layout 4 cmd ++ rest) = (decode cmd).map (·, rest)

/-- R83, R84: each command has one line, which assembles back to it, and the examples of R83 assemble to their words. -/
def Obligations.AssemblerReadsItsLines : Prop :=
  (∀ i : Instr, Asm.assemble (Asm.disassemble i) = some i) ∧
  Asm.readListing "CLZ.64 x3, x1" = some [.issue 0x02131000] ∧
  Asm.readListing "FDNEW.64 fd[0], x1 # construct" = some [.issue 0x10101000] ∧
  Asm.readListing "EDTEST x4, x2, ed[7]" = some [.issue 0x21042007] ∧
  Asm.readListing "FDRD.SHAMT x5, fd[0]" = some [.issue 0x13050200]

/-! ### Steps, transactions and runs (spec/20_memory.md, spec/70_reset_and_hazards.md) -/

/-- R56, R79: when the next transaction issues a word that decodes to `i` and the block is running, the step is `exec i`, with
that transaction taken off the host's list. The second clause says it of `withFetchWord`. -/
def Obligations.StepRunsDecodedCommand : Prop :=
  (∀ (s : State) (cmd : Cmd) (rest : List Transaction) (i : Instr), s.pending = .issue cmd :: rest → s.halted = false →
    decode cmd = .ok i → step s = exec i { s with pending := rest }) ∧
  (∀ (s : State) (w : Nat) (i : Instr), s.halted = false → decodeTableWord 32 w = some i →
    step (s.withFetchWord 32 w) = exec i s)

/-- R52, R61: a step performs the host's next transaction. That a step with no transaction pending changes nothing is the
model's choice (log 3), as is the list itself (log 2). -/
def Obligations.StepTakesNextTransaction : Prop :=
  ∀ s : State, (s.pending = [] → step s = .next s) ∧
    ∀ t rest, s.pending = t :: rest → step s = transact t { s with pending := rest }

/-- R61, R229: as many steps as there are transactions perform the run of those transactions, whatever is pending after. -/
def Obligations.RunsAreSteps : Prop :=
  ∀ (ts rest : List Transaction) (s : State),
    (Host.Core.run Sys2Proof.core ts.length ({ s with pending := ts ++ rest } : State) : Host.Outcome State Fault Refusal) =
      runList ts { s with pending := rest }

/-- R61, R228, R229: every run completes, and a run of two lists is the run of the second from where the first ended. -/
def Obligations.RunsCompose : Prop :=
  ∀ (as bs : List Transaction) (s : State), ∃ t, runList as s = .next t ∧ runList (as ++ bs) s = runList bs t

/-- R53: `HostWriteReg(j, v)` writes `x[j]` of a running block and has no effect on a halted one; no other state changes. -/
def Obligations.HostWriteRegister : Prop :=
  ∀ (s : State) (j : RegIdx) (v : Word) (rest : List Transaction), s.pending = .hostWriteReg j v :: rest →
    (s.halted = false → step s = .next { s with pending := rest, x := s.x.set j.val v j.isLt }) ∧
    (s.halted = true → step s = .next { s with pending := rest })

/-- R54, R55, with R31: the reads return `x[j]`; `ID`, `STATUS`, `FCMD`, and 0 for every other index; no state of the block
changes, whether it is running or halted. -/
def Obligations.HostReadsReturnAndChangeNothing : Prop :=
  (∀ (s : State) (j : RegIdx) (rest : List Transaction), s.pending = .hostReadReg j :: rest →
    step s = .next { s with pending := rest, returned := s.returned ++ [.reg (s.readReg j)] }) ∧
  (∀ (s : State) (j : BitVec 32) (rest : List Transaction), s.pending = .hostReadCtl j :: rest → ∃ v,
    step s = .next { s with pending := rest, returned := s.returned ++ [.ctl v] } ∧
    (j = 0 → v = if s.checked then 1 else 0) ∧ (j = 1 → v = s.status) ∧ (j = 2 → v = s.fcmd) ∧ (2 < j.toNat → v = 0))

/-- R35, R57, R220: after reset, and after a `Reset` from any state, running or halted, every register is 0, every slot is empty,
`STATUS` and `FCMD` are 0, and `CHECKED`, which is `ID`, is as it was. (The values of the model's own fields are in logs 1, 2,
4, 5 and 11, and not stated here.) -/
def Obligations.ResetReachesResetState : Prop :=
  let isReset (t : State) : Prop :=
    (∀ r, t.readReg r = 0) ∧ (∀ c, t.readFd c = none) ∧ (∀ c, t.readEd c = none) ∧ t.status = 0 ∧ t.fcmd = 0
  isReset State.reset ∧
  (∀ checked, isReset (State.resetOn checked) ∧ (State.resetOn checked).checked = checked) ∧
  ∀ (s : State) (rest : List Transaction), s.pending = .reset :: rest →
    ∃ t, step s = .next t ∧ isReset t ∧ t.checked = s.checked ∧ t.readCtl 0 = s.readCtl 0

/-- R197: while halted, `Issue` and `HostWriteReg` are discarded, the reads work, `Reset` ends the halt; and such a state is
not one in which a run has gone right. -/
def Obligations.HaltedBlockIsFrozen : Prop :=
  ∀ s : State, s.halted = true → ¬ s.goneRight ∧
    (∀ cmd rest, s.pending = .issue cmd :: rest → step s = .next { s with pending := rest }) ∧
    (∀ j v rest, s.pending = .hostWriteReg j v :: rest → step s = .next { s with pending := rest }) ∧
    (∀ j rest, s.pending = .hostReadReg j :: rest →
      step s = .next { s with pending := rest, returned := s.returned ++ [.reg (s.readReg j)] }) ∧
    (∀ j rest, s.pending = .hostReadCtl j :: rest →
      step s = .next { s with pending := rest, returned := s.returned ++ [.ctl (s.readCtl j)] }) ∧
    (∀ rest, s.pending = .reset :: rest → ∃ t, step s = .next t ∧ t.halted = false)

/-- R197, R198: without a `Reset`, a run from a halted state leaves the whole state of the block as it was, so `STATUS` and
`FCMD` describe the first fault since reset. -/
def Obligations.FirstFaultIsKept : Prop :=
  ∀ (ts : List Transaction) (s t : State), s.halted = true → .reset ∉ ts → runList ts s = .next t →
    t.x = s.x ∧ t.fd = s.fd ∧ t.ed = s.ed ∧ t.status = s.status ∧ t.fcmd = s.fcmd

/-- R10, R200, R228: a step always answers a next state, never a fault or a refusal of the model, and no step changes the build. -/
def Obligations.StepAlwaysAnswersNext : Prop :=
  ∀ s : State, ∃ t, step s = .next t ∧ t.checked = s.checked

/-! ### Faults (spec/60_exceptions.md) -/

/-- R18, R192, R196: a command that leaves a running block halted has raised one cause of its row of R192, and has written
`STATUS.FAULT`, `STATUS.CAUSE` and `FCMD` and nothing else. -/
def Obligations.FaultIsPrecise : Prop :=
  ∀ (i : Instr) (s t : State), s.halted = false → exec i s = .next t → t.halted = true →
    ∃ cause ∈ raisable s.checked i,
      t = { s with status := statusOf cause, fcmd := encode i } ∧
      statusFault t.status = true ∧ statusCause t.status = cause.code

/-- R194: on an unchecked build a legal command can raise only `CtxInvalid`; and the two builds agree on every command that
violates nothing, seen from the checked build (it did not halt) and from the unchecked one (it drew nothing). -/
def Obligations.BuildsAgreeWithoutViolation : Prop :=
  (∀ (i : Instr) (s t : State), s.checked = false → s.halted = false → exec i s = .next t → t.halted = true →
    t.status = 0x00000201) ∧
  (∀ (i : Instr) (s t : State), s.checked = true → exec i s = .next t → t.halted = false →
    exec i { s with checked := false } = .next { t with checked := false }) ∧
  (∀ (i : Instr) (s t : State), s.checked = false → exec i s = .next t → t.draws = s.draws →
    exec i { s with checked := true } = .next { t with checked := true })

/-- R191, R195: a command on an empty slot raises `CtxInvalid` on both builds, whatever its operand is. -/
def Obligations.EmptySlotRaises : Prop :=
  ∀ (s : State) (rd rs : RegIdx) (c : SlotIdx),
    (s.readFd c = none →
      ∀ i ∈ [Instr.fddiv rd rs c, .fdmod rd rs c, .fdrdM rd c, .fdrdMul rd c, .fdrdShamt rd c, .fdrdW rd c],
        exec i s = .next { s with status := 0x00000201, fcmd := encode i }) ∧
    (s.readEd c = none →
      ∀ i ∈ [Instr.edtest rd rs c, .edquo rd rs c, .edrdN rd c, .edrdInv rd c, .edrdThr rd c, .edrdW rd c],
        exec i s = .next { s with status := 0x00000201, fcmd := encode i })

/-- R137, R142, R170, R172, R194: a query whose operand does not fit the slot's width raises `OperandRange` on a checked build;
on an unchecked one it writes an unspecified value, of one bit for `EDTEST` and of `W` bits for the others. -/
def Obligations.QueryOutOfRange : Prop :=
  ∀ (s : State) (rd rs : RegIdx) (c : SlotIdx),
    let drawn (bits : Nat) : Host.Outcome State Fault Refusal :=
      .next { s with x := s.x.set rd.val ((Config.unspec bits s.draws).setWidth 128) rd.isLt, draws := s.draws + 1 }
    (∀ d, s.readFd c = some d → 2 ^ d.w.bits ≤ (s.readReg rs).toNat → ∀ i ∈ [Instr.fddiv rd rs c, .fdmod rd rs c],
      (s.checked = true → exec i s = .next { s with status := 0x00000301, fcmd := encode i }) ∧
      (s.checked = false → exec i s = drawn d.w.bits)) ∧
    (∀ d, s.readEd c = some d → 2 ^ d.w.bits ≤ (s.readReg rs).toNat →
      (∀ i ∈ [Instr.edtest rd rs c, .edquo rd rs c],
        s.checked = true → exec i s = .next { s with status := 0x00000301, fcmd := encode i }) ∧
      (s.checked = false → exec (.edtest rd rs c) s = drawn 1 ∧ exec (.edquo rd rs c) s = drawn d.w.bits))

/-! ### Invariants (spec/10_state.md) -/

/-- R32, R33, R191, R192: every step keeps the control registers legal: both 0, or `STATUS` of one cause with its reserved bits 0
and `FCMD` a word that raises that cause on this build. -/
def Obligations.ControlRegistersStayLegal : Prop :=
  ∀ s t : State, s.ControlLegal → step s = .next t → t.ControlLegal

/-- R24, R26, R134, R166: every step keeps the fields of every full slot within its word width, drawn fields included. -/
def Obligations.SlotFieldsStayInWidth : Prop :=
  ∀ s t : State, s.SlotsFit → step s = .next t → t.SlotsFit

/-- R25, R37: on a checked build every step keeps the defining relations of every full slot. -/
def Obligations.CheckedSlotsStayValid : Prop :=
  ∀ s t : State, s.checked = true → s.SlotsValid → step s = .next t → t.checked = true ∧ t.SlotsValid

/-- R35: the three invariants hold after reset, on both builds. -/
def Obligations.InvariantsHoldAtReset : Prop :=
  ∀ checked : Bool, (State.resetOn checked).ControlLegal ∧ (State.resetOn checked).SlotsFit ∧
    (State.resetOn checked).SlotsValid ∧ State.reset = State.resetOn State.reset.checked

/-! ### Frames, and what commands read (spec/10_state.md R22, R23, R29) -/

/-- R22, R28, R29, R196: the frame of the commands with a destination: every other data register, both slot files and the
host's side are unchanged; the control registers are unchanged or fault entry has written them, and then every data register is
unchanged. -/
def Obligations.RegisterCommandFrame : Prop :=
  ∀ (i : Instr) (s t : State) (rd : RegIdx), i.dest = some rd → exec i s = .next t →
    (∀ r, r ≠ rd → t.readReg r = s.readReg r) ∧ (∀ c, t.readFd c = s.readFd c) ∧ (∀ c, t.readEd c = s.readEd c) ∧
    t.checked = s.checked ∧ t.pending = s.pending ∧ t.returned = s.returned ∧
    ((t.status = s.status ∧ t.fcmd = s.fcmd) ∨
      ((∃ cause, t.status = statusOf cause) ∧ t.fcmd = encode i ∧ t.readReg rd = s.readReg rd ∧ t.draws = s.draws))

/-- R22, R29, R196: the frame of the constructions: every data register, every slot but the one named and the host's side are
unchanged; the control registers are unchanged or fault entry has written them, and then the named slot is unchanged too. -/
def Obligations.ConstructionFrame : Prop :=
  ∀ (i : Instr) (s t : State), i.dest = none → exec i s = .next t →
    (∀ r, t.readReg r = s.readReg r) ∧ (∀ c, i.fdSlot ≠ some c → t.readFd c = s.readFd c) ∧
    (∀ c, i.edSlot ≠ some c → t.readEd c = s.readEd c) ∧
    t.checked = s.checked ∧ t.pending = s.pending ∧ t.returned = s.returned ∧
    ((t.status = s.status ∧ t.fcmd = s.fcmd) ∨
      ((∃ cause, t.status = statusOf cause) ∧ t.fcmd = encode i ∧ (∀ c, t.readFd c = s.readFd c) ∧
        (∀ c, t.readEd c = s.readEd c) ∧ t.draws = s.draws))

/-- R23, R29, R220: a slot changes in a step only by `Reset`, which empties it, or by a construction that names it, which
leaves it full. -/
def Obligations.SlotsChangeOnlyByConstructionOrReset : Prop :=
  ∀ (s t : State) (c : SlotIdx), step s = .next t →
    (t.readFd c ≠ s.readFd c → (∃ rest, s.pending = .reset :: rest ∧ t.readFd c = none) ∨
      ∃ cmd rest rs, s.pending = .issue cmd :: rest ∧
        (decode cmd = .ok (.fdnew32 rs c) ∨ decode cmd = .ok (.fdnew64 rs c)) ∧ t.readFd c ≠ none) ∧
    (t.readEd c ≠ s.readEd c → (∃ rest, s.pending = .reset :: rest ∧ t.readEd c = none) ∨
      ∃ cmd rest rs, s.pending = .issue cmd :: rest ∧
        (decode cmd = .ok (.ednew32 rs c) ∨ decode cmd = .ok (.ednew64 rs c)) ∧ t.readEd c ≠ none)

/-- R22, R29, R56: a command reads `x[rs]`, the slot it names and the build, and nothing else: from two states that agree on
those, where neither draws an unspecified value, it halts both or neither, with the same `STATUS`, and writes the same result
or the same instance. -/
def Obligations.CommandsReadOnlyTheirOperands : Prop :=
  ∀ (i : Instr) (s s' t t' : State), s.checked = s'.checked → s.halted = false → s'.halted = false →
    (∀ rs, i.source = some rs → s.readReg rs = s'.readReg rs) →
    (∀ c, i.fdSlot = some c → s.readFd c = s'.readFd c) → (∀ c, i.edSlot = some c → s.readEd c = s'.readEd c) →
    exec i s = .next t → exec i s' = .next t' → t.draws = s.draws → t'.draws = s'.draws →
    t.halted = t'.halted ∧ (t.halted = true → t.status = t'.status ∧ t.fcmd = t'.fcmd) ∧
    (t.halted = false → ∀ rd, i.dest = some rd → t.readReg rd = t'.readReg rd) ∧
    (∀ c, i.fdSlot = some c → t.readFd c = t'.readFd c) ∧ (∀ c, i.edSlot = some c → t.readEd c = t'.readEd c)

/-- R64: two commands that write registers (queries, read-outs and bit-scan commands), neither of which faults or draws, with
different destinations and neither reading the other's, lead to the same state in either order; a construction and a query on
the same slot do not commute. -/
def Obligations.QueriesCommute : Prop :=
  (∀ (A B : Instr) (s sA sB : State) (ra rb : RegIdx), A.dest = some ra → B.dest = some rb → ra ≠ rb →
    B.source ≠ some ra → A.source ≠ some rb → s.halted = false →
    exec A s = .next sA → exec B s = .next sB → sA.halted = false → sB.halted = false →
    sA.draws = s.draws → sB.draws = s.draws →
    ∃ t, exec B sA = .next t ∧ exec A sB = .next t) ∧
  (∃ (s sN sQ t u : State), exec (.fdnew32 4 0) s = .next sN ∧ exec (.fddiv 3 2 0) sN = .next t ∧
    exec (.fddiv 3 2 0) s = .next sQ ∧ exec (.fdnew32 4 0) sQ = .next u ∧ t.halted = false ∧ u.halted = false ∧ t ≠ u)

/-! ### Bit-scan (spec/40_bitscan.md) -/

/-- R100, R101, R105, R108 to R110: `POPCNT` of an operand in range writes the number of its set bits, zero-extended, and changes
nothing else. -/
def Obligations.PopcountCounts : Prop :=
  ∀ (s : State) (rd rs : RegIdx), let v := (s.readReg rs).toNat
    let count (N : Nat) : Host.Outcome State Fault Refusal :=
      .next { s with x := s.x.set rd.val (BitVec.ofNat 128 ((List.range N).countP v.testBit)) rd.isLt }
    (v < 2 ^ 32 → exec (.popcnt32 rd rs) s = count 32) ∧ (v < 2 ^ 64 → exec (.popcnt64 rd rs) s = count 64) ∧
    exec (.popcnt128 rd rs) s = count 128

/-- R100, R102, R106, R111 to R113: `CLZ` of a nonzero operand in range writes `N - 1 - h`, `h` the position of its highest set bit,
the one with `2^h <= v < 2^(h+1)`, and changes nothing else. -/
def Obligations.ClzCounts : Prop :=
  ∀ (s : State) (rd rs : RegIdx) (h : Nat), let v := (s.readReg rs).toNat
    let gives (n : Nat) : Host.Outcome State Fault Refusal := .next { s with x := s.x.set rd.val (BitVec.ofNat 128 n) rd.isLt }
    2 ^ h ≤ v → v < 2 ^ (h + 1) →
    (v < 2 ^ 32 → exec (.clz32 rd rs) s = gives (31 - h)) ∧ (v < 2 ^ 64 → exec (.clz64 rd rs) s = gives (63 - h)) ∧
    exec (.clz128 rd rs) s = gives (127 - h)

/-- R100, R103, R107, R114 to R116: `CTZ` of a nonzero operand in range writes the position of its lowest set bit, the `h` for which
`2^h` divides `v` and `2^(h+1)` does not, and changes nothing else. -/
def Obligations.CtzCounts : Prop :=
  ∀ (s : State) (rd rs : RegIdx) (h : Nat), let v := (s.readReg rs).toNat
    let gives (n : Nat) : Host.Outcome State Fault Refusal := .next { s with x := s.x.set rd.val (BitVec.ofNat 128 n) rd.isLt }
    2 ^ h ∣ v → ¬ 2 ^ (h + 1) ∣ v →
    (v < 2 ^ 32 → exec (.ctz32 rd rs) s = gives h) ∧ (v < 2 ^ 64 → exec (.ctz64 rd rs) s = gives h) ∧
    exec (.ctz128 rd rs) s = gives h

/-- R100, R104, R117 to R119: `ILOG2` of a nonzero operand in range writes `floor(log2 v)` and changes nothing else. -/
def Obligations.Ilog2IsFloorLog : Prop :=
  ∀ (s : State) (rd rs : RegIdx) (h : Nat), let v := (s.readReg rs).toNat
    let gives (n : Nat) : Host.Outcome State Fault Refusal := .next { s with x := s.x.set rd.val (BitVec.ofNat 128 n) rd.isLt }
    2 ^ h ≤ v → v < 2 ^ (h + 1) →
    (v < 2 ^ 32 → exec (.ilog2_32 rd rs) s = gives h) ∧ (v < 2 ^ 64 → exec (.ilog2_64 rd rs) s = gives h) ∧
    exec (.ilog2_128 rd rs) s = gives h

/-- R100, R191, R192: the violations of the bit-scan commands. On a checked build an operand out of range raises `OperandRange`
and a zero operand of `CLZ`, `CTZ`, `ILOG2` raises `ZeroInput`; on an unchecked one the result is an unspecified 32-bit value,
zero-extended, and nothing else changes. -/
def Obligations.ScanViolations : Prop :=
  ∀ (s : State) (rd rs : RegIdx),
    let outcome (i : Instr) (status : BitVec 32) : Prop :=
      (s.checked = true → exec i s = .next { s with status := status, fcmd := encode i }) ∧
      (s.checked = false → exec i s = .next { s with
        x := s.x.set rd.val ((Config.unspec 32 s.draws).setWidth 128) rd.isLt, draws := s.draws + 1 })
    (2 ^ 32 ≤ (s.readReg rs).toNat →
      ∀ i ∈ [Instr.popcnt32 rd rs, .clz32 rd rs, .ctz32 rd rs, .ilog2_32 rd rs], outcome i 0x00000301) ∧
    (2 ^ 64 ≤ (s.readReg rs).toNat →
      ∀ i ∈ [Instr.popcnt64 rd rs, .clz64 rd rs, .ctz64 rd rs, .ilog2_64 rd rs], outcome i 0x00000301) ∧
    ((s.readReg rs).toNat = 0 →
      ∀ i ∈ [Instr.clz32 rd rs, .clz64 rd rs, .clz128 rd rs, .ctz32 rd rs, .ctz64 rd rs, .ctz128 rd rs,
        .ilog2_32 rd rs, .ilog2_64 rd rs, .ilog2_128 rd rs], outcome i 0x00000401)

/-- R105, R106, R107: the double-width functions by halves, and that they agree with the functions of R101 to R103 at 128 bits. -/
def Obligations.DoubleWidthByHalves : Prop :=
  ∀ v : Nat, v < 2 ^ 128 → let hi := v / 2 ^ 64; let lo := v % 2 ^ 64
    popcount 128 v = popcount 64 hi + popcount 64 lo ∧ popcount128 v = popcount 128 v ∧
    (v ≠ 0 → (hi ≠ 0 → clz 128 v = clz 64 hi) ∧ (hi = 0 → lo ≠ 0 ∧ clz 128 v = 64 + clz 64 lo) ∧ clz128 v = clz 128 v) ∧
    (v ≠ 0 → (lo ≠ 0 → ctz 128 v = ctz 64 lo) ∧ (lo = 0 → hi ≠ 0 ∧ ctz 128 v = 64 + ctz 64 hi) ∧ ctz128 v = ctz 128 v)

/-- R120: the laws of the four functions, for `N` in {32, 64, 128} and `0 < v < 2^N`. -/
def Obligations.BitScanLaws : Prop :=
  ∀ N ∈ [32, 64, 128], ∀ v : Nat, 0 < v → v < 2 ^ N →
    clz N v + ilog2 N v = N - 1 ∧
    (2 ^ ilog2 N v ≤ v ∧ v < 2 ^ (ilog2 N v + 1)) ∧
    (2 ^ ctz N v ∣ v ∧ ¬ 2 ^ (ctz N v + 1) ∣ v) ∧
    (ctz N v ≤ ilog2 N v ∧ (ctz N v = ilog2 N v ↔ ∃ j, v = 2 ^ j) ∧ ((∃ j, v = 2 ^ j) ↔ popcount N v = 1)) ∧
    (1 ≤ popcount N v ∧ popcount N v ≤ ilog2 N v - ctz N v + 1) ∧
    (∀ M ∈ [32, 64, 128], N < M → popcount M v = popcount N v ∧ ctz M v = ctz N v ∧ ilog2 M v = ilog2 N v ∧
      clz M v = clz N v + (M - N))

/-! ### Fast Division (spec/41_fastdiv.md) -/

/-- R25, R131, R132, R134, R135: `FDNEW` of a divisor `1 <= m < 2^W` stores the instance of `m` at that width, which satisfies every
relation of R25, and changes nothing else. -/
def Obligations.FdnewStoresValidInstance : Prop :=
  ∀ (s : State) (rs : RegIdx) (c : SlotIdx), let m := (s.readReg rs).toNat
    1 ≤ m →
    let stores (w : WordWidth) (i : Instr) : Prop := ∃ d : FdSlot, d.w = w ∧ d.m.toNat = m ∧ d.Valid ∧
      exec i s = .next { s with fd := s.fd.set c.val (some d) c.isLt }
    (m < 2 ^ 32 → stores .w32 (.fdnew32 rs c)) ∧ (m < 2 ^ 64 → stores .w64 (.fdnew64 rs c))

/-- R134, R135, R195: a violated `FDNEW`. On a checked build a divisor out of range raises `OperandRange` and a zero divisor
`DivisorZero`, and the slot keeps what it held; on an unchecked one the slot becomes full with unspecified fields of their widths. -/
def Obligations.FdnewViolations : Prop :=
  ∀ (s : State) (rs : RegIdx) (c : SlotIdx), let m := (s.readReg rs).toNat
    let violates (w : WordWidth) (i : Instr) : Prop :=
      (s.checked = true → 2 ^ w.bits ≤ m → exec i s = .next { s with status := 0x00000301, fcmd := encode i }) ∧
      (s.checked = true → m = 0 → exec i s = .next { s with status := 0x00000501, fcmd := encode i }) ∧
      (s.checked = false → (2 ^ w.bits ≤ m ∨ m = 0) → exec i s = .next { s with
        fd := s.fd.set c.val (some ⟨w, (Config.unspec w.bits s.draws).setWidth 64,
          (Config.unspec w.bits (s.draws + 1)).setWidth 64, Config.unspec 7 (s.draws + 2)⟩) c.isLt, draws := s.draws + 3 })
    violates .w32 (.fdnew32 rs c) ∧ violates .w64 (.fdnew64 rs c)

/-- R136, R137, R141, R142: on a full slot and a dividend `a < 2^W`, `FDDIV` writes the low `W` bits of `floor(a * mul / 2^shamt)`, and
`FDMOD` the `r < 2^W` that differs from `a - q * m` by a multiple of `2^W`; nothing else changes. This holds whatever the fields
of the slot are, exact or not. -/
def Obligations.FdQueriesCompute : Prop :=
  ∀ (s : State) (rd rs : RegIdx) (c : SlotIdx) (d : FdSlot), s.readFd c = some d → let a := (s.readReg rs).toNat
    a < 2 ^ d.w.bits →
    let q := a * d.mul.toNat / 2 ^ d.shamt.toNat % 2 ^ d.w.bits
    exec (.fddiv rd rs c) s = .next { s with x := s.x.set rd.val (BitVec.ofNat 128 q) rd.isLt } ∧
    ∃ r : Nat, r < 2 ^ d.w.bits ∧ (2 ^ d.w.bits : Int) ∣ (a : Int) - q * d.m.toNat - r ∧
      exec (.fdmod rd rs c) s = .next { s with x := s.x.set rd.val (BitVec.ofNat 128 r) rd.isLt }

/-- R133: the bounds on the constants of a divisor `m > 1`, with `2^(L-1) < m <= 2^L`, and the constants of `m = 1`. -/
def Obligations.FdConstantBounds : Prop :=
  ∀ W ∈ [32, 64], (fdConstruct W 1 = (1, 0)) ∧
    ∀ m L : Nat, 1 < m → m < 2 ^ W → 1 ≤ L → 2 ^ (L - 1) < m → m ≤ 2 ^ L →
      let mul := (fdConstruct W m).1; let shamt := (fdConstruct W m).2
      L = ilog2 W (m - 1) + 1 ∧ L ≤ W ∧ shamt = W + L - 1 ∧ W ≤ shamt ∧ shamt ≤ 2 * W - 1 ∧ shamt ≤ 127 ∧
      2 ^ shamt + m - 1 < 2 ^ (2 * W - 1) + 2 ^ W ∧ 2 ^ (2 * W - 1) + 2 ^ W ≤ 2 ^ (2 * W) ∧
      2 ^ (W - 1) ≤ mul ∧ mul ≤ 2 ^ W - 1 ∧
      2 ^ shamt ≤ mul * m ∧ mul * m - 2 ^ shamt < m ∧
      ((mul * m = 2 ^ shamt ↔ ∃ j, m = 2 ^ j) ∧ ((∃ j, m = 2 ^ j) → m = 2 ^ L ∧ mul = 2 ^ (W - 1)))

/-- R139 (c), R143: on a slot built without violation, for every dividend `a <= 2^(W-1)`, whatever the divisor is, `FDDIV` writes
`floor(a / m)` and `FDMOD` writes `a mod m`. -/
def Obligations.FddivExactUpToHalfRange : Prop :=
  ∀ (s : State) (rd rs : RegIdx) (c : SlotIdx) (d : FdSlot), s.readFd c = some d → d.Valid →
    let a := (s.readReg rs).toNat
    a ≤ 2 ^ (d.w.bits - 1) →
    exec (.fddiv rd rs c) s = .next { s with x := s.x.set rd.val (BitVec.ofNat 128 (a / d.m.toNat)) rd.isLt } ∧
    exec (.fdmod rd rs c) s = .next { s with x := s.x.set rd.val (BitVec.ofNat 128 (a % d.m.toNat)) rd.isLt }

/-- R139 (d), R143: on a slot built without violation whose error `e = mul * m - 2^shamt` is at most `2^(L-1)`, which is
`2^(shamt - W)`, `FDDIV` and `FDMOD` are exact for every dividend `a < 2^W`. -/
def Obligations.FddivExactForSmallError : Prop :=
  ∀ (s : State) (rd rs : RegIdx) (c : SlotIdx) (d : FdSlot), s.readFd c = some d → d.Valid →
    d.mul.toNat * d.m.toNat - 2 ^ d.shamt.toNat ≤ 2 ^ (d.shamt.toNat - d.w.bits) →
    let a := (s.readReg rs).toNat
    a < 2 ^ d.w.bits →
    exec (.fddiv rd rs c) s = .next { s with x := s.x.set rd.val (BitVec.ofNat 128 (a / d.m.toNat)) rd.isLt } ∧
    exec (.fdmod rd rs c) s = .next { s with x := s.x.set rd.val (BitVec.ofNat 128 (a % d.m.toNat)) rd.isLt }

/-- R139 (a) and (b), R143: on a slot built without violation and a dividend `a < 2^W`, `FDDIV` writes `q' = q + floor((q * e + r * mul) /
2^shamt)`, which is `q` or `q + 1`, and is `q` exactly when `a * e < (m - r) * 2^shamt`; then `FDMOD` writes `r`, and otherwise
`2^W - (m - r)`. -/
def Obligations.QuotientIsExactOrOneTooLarge : Prop :=
  ∀ (s : State) (rd rs : RegIdx) (c : SlotIdx) (d : FdSlot), s.readFd c = some d → d.Valid →
    let a := (s.readReg rs).toNat; let m := d.m.toNat; let mul := d.mul.toNat; let S := 2 ^ d.shamt.toNat
    let q := a / m; let r := a % m; let e := mul * m - S; let q' := q + (q * e + r * mul) / S
    a < 2 ^ d.w.bits →
    exec (.fddiv rd rs c) s = .next { s with x := s.x.set rd.val (BitVec.ofNat 128 q') rd.isLt } ∧
    (q' = q ∨ q' = q + 1) ∧ (q' = q ↔ a * e < (m - r) * S) ∧
    (q' = q → exec (.fdmod rd rs c) s = .next { s with x := s.x.set rd.val (BitVec.ofNat 128 r) rd.isLt }) ∧
    (q' = q + 1 → exec (.fdmod rd rs c) s =
      .next { s with x := s.x.set rd.val (BitVec.ofNat 128 (2 ^ d.w.bits - (m - r))) rd.isLt })

/-- R139 (e): at `W = 32` with the divisors 7 and 1000000007, and at `W = 64` with the divisor 7, the quotient of the dividend named
here is one too large, and that of every smaller dividend is exact. So the source's claim that every quotient is exact is false
(spec/90_conflicts.md C1). -/
def Obligations.SmallestInexactDividends : Prop :=
  ∀ p ∈ [(WordWidth.w32, 7, 0xCCCCCCD1, 490853406), (.w32, 1000000007, 3000000020, 3),
      (.w64, 7, 0xAAAAAAAAAAAAAAAD, 0x1861861861861862)],
    let w := p.1; let m := p.2.1; let a := p.2.2.1; let q' := p.2.2.2
    (fdInstance w m).quotient a = q' ∧ q' = a / m + 1 ∧ ∀ b, b < a → (fdInstance w m).quotient b = b / m

/-- R148: a slot built from `m = 1` is the identity: from any state with 1 in `x[rs]`, `FDNEW` completes, and on any later state
that still holds that instance `FDDIV` writes the dividend and `FDMOD` writes 0, for every `a < 2^W`. -/
def Obligations.IdentityDivisor : Prop :=
  ∀ (s : State) (rs : RegIdx) (c : SlotIdx), (s.readReg rs).toNat = 1 →
    ∀ i ∈ [Instr.fdnew32 rs c, .fdnew64 rs c], ∃ t d, exec i s = .next t ∧ t.readFd c = some d ∧
      ∀ (u : State) (rd ra : RegIdx), u.readFd c = some d → (u.readReg ra).toNat < 2 ^ d.w.bits →
        exec (.fddiv rd ra c) u = .next { u with x := u.x.set rd.val (u.readReg ra) rd.isLt } ∧
        exec (.fdmod rd ra c) u = .next { u with x := u.x.set rd.val 0 rd.isLt }

/-- R149: a slot built from `m = 2^j`, `1 <= j <= W - 1`, has `mul = 2^(W-1)` and `shamt = W + j - 1`; `FDDIV` writes `a >> j` and
`FDMOD` writes `a mod 2^j`, for every `a < 2^W`. -/
def Obligations.PowerOfTwoDivisors : Prop :=
  ∀ (s : State) (rd rs : RegIdx) (c : SlotIdx) (d : FdSlot) (j : Nat), s.readFd c = some d → d.Valid →
    d.m.toNat = 2 ^ j → 1 ≤ j → j ≤ d.w.bits - 1 → let a := (s.readReg rs).toNat
    d.mul.toNat = 2 ^ (d.w.bits - 1) ∧ d.shamt.toNat = d.w.bits + j - 1 ∧
    (a < 2 ^ d.w.bits →
      exec (.fddiv rd rs c) s = .next { s with x := s.x.set rd.val (BitVec.ofNat 128 (a >>> j)) rd.isLt } ∧
      exec (.fdmod rd rs c) s = .next { s with x := s.x.set rd.val (BitVec.ofNat 128 (a % 2 ^ j)) rd.isLt })

/-- R144 to R147: the read-outs of a full Fast Division slot write its field, zero-extended, and change nothing else; on an empty
slot they raise `CtxInvalid` on both builds. -/
def Obligations.FdReadOuts : Prop :=
  ∀ (s : State) (rd : RegIdx) (c : SlotIdx),
    let gives (v : Word) : Host.Outcome State Fault Refusal := .next { s with x := s.x.set rd.val v rd.isLt }
    (∀ d, s.readFd c = some d →
      exec (.fdrdM rd c) s = gives (d.m.setWidth 128) ∧ exec (.fdrdMul rd c) s = gives (d.mul.setWidth 128) ∧
      exec (.fdrdShamt rd c) s = gives (d.shamt.setWidth 128) ∧
      exec (.fdrdW rd c) s = gives (if d.w = .w32 then 32 else 64)) ∧
    (s.readFd c = none → ∀ i ∈ [Instr.fdrdM rd c, .fdrdMul rd c, .fdrdShamt rd c, .fdrdW rd c],
      exec i s = .next { s with status := 0x00000201, fcmd := encode i })

/-! ### Exact Divisor (spec/42_exactdiv.md) -/

/-- R37, R161, R163, R165 to R167: `EDNEW` of an odd divisor `n < 2^W` stores the instance of `n` at that width, which satisfies every
relation of R37 (among them `n * inv mod 2^W = 1`), and changes nothing else. -/
def Obligations.EdnewStoresValidInstance : Prop :=
  ∀ (s : State) (rs : RegIdx) (c : SlotIdx), let n := (s.readReg rs).toNat
    n % 2 = 1 →
    let stores (w : WordWidth) (i : Instr) : Prop := ∃ d : EdSlot, d.w = w ∧ d.n.toNat = n ∧ d.Valid ∧
      exec i s = .next { s with ed := s.ed.set c.val (some d) c.isLt }
    (n < 2 ^ 32 → stores .w32 (.ednew32 rs c)) ∧ (n < 2 ^ 64 → stores .w64 (.ednew64 rs c))

/-- R166, R167, R195: a violated `EDNEW`. On a checked build, in this order: out of range raises `OperandRange`, zero `DivisorZero`,
even `DivisorEven`; on an unchecked one the slot becomes full with unspecified fields, drawn once. -/
def Obligations.EdnewViolations : Prop :=
  ∀ (s : State) (rs : RegIdx) (c : SlotIdx), let n := (s.readReg rs).toNat
    let violates (w : WordWidth) (i : Instr) : Prop :=
      (s.checked = true → 2 ^ w.bits ≤ n → exec i s = .next { s with status := 0x00000301, fcmd := encode i }) ∧
      (s.checked = true → n = 0 → exec i s = .next { s with status := 0x00000501, fcmd := encode i }) ∧
      (s.checked = true → n < 2 ^ w.bits → n ≠ 0 → n % 2 = 0 →
        exec i s = .next { s with status := 0x00000601, fcmd := encode i }) ∧
      (s.checked = false → (2 ^ w.bits ≤ n ∨ n % 2 = 0) → exec i s = .next { s with
        ed := s.ed.set c.val (some ⟨w, (Config.unspec w.bits s.draws).setWidth 64,
          (Config.unspec w.bits (s.draws + 1)).setWidth 64, (Config.unspec w.bits (s.draws + 2)).setWidth 64⟩) c.isLt,
        draws := s.draws + 3 })
    violates .w32 (.ednew32 rs c) ∧ violates .w64 (.ednew64 rs c)

/-- R168, R170, R171, R172: on a full slot and `k < 2^W`, `EDQUO` writes the wrapped product `p = (k * inv) mod 2^W` and `EDTEST` writes 1
if `p <= thr` and 0 otherwise; nothing else changes. This holds whatever the fields of the slot are. -/
def Obligations.EdQueriesCompute : Prop :=
  ∀ (s : State) (rd rs : RegIdx) (c : SlotIdx) (d : EdSlot), s.readEd c = some d → let k := (s.readReg rs).toNat
    k < 2 ^ d.w.bits →
    let p := k * d.inv.toNat % 2 ^ d.w.bits
    exec (.edquo rd rs c) s = .next { s with x := s.x.set rd.val (BitVec.ofNat 128 p) rd.isLt } ∧
    exec (.edtest rd rs c) s = .next { s with x := s.x.set rd.val (if p ≤ d.thr.toNat then 1 else 0) rd.isLt }

/-- R162: a refinement step in the integers doubles the number of correct low-order bits; the step the block makes does so up
to the word width; and so `y_j` is right modulo `2^(2^j)`, up to the word width. -/
def Obligations.RefinementDoublesCorrectBits : Prop :=
  (∀ (n y : Int) (j : Nat), 2 ^ j ∣ n * y - 1 → 2 ^ (2 * j) ∣ n * (y * (2 - y * n)) - 1) ∧
  ∀ W ∈ [32, 64],
    (∀ n y j : Nat, 1 ≤ j → n * y % 2 ^ j = 1 → n * refine W n y % 2 ^ min (2 * j) W = 1) ∧
    (∀ n j : Nat, n % 2 = 1 → n * refinement W n j % 2 ^ min (2 ^ j) W = 1)

/-- R164: six steps are right at both widths, at 32 bits five already are and the sixth changes nothing, and the inverse below
`2^W` is unique. -/
def Obligations.InverseIsTheInverse : Prop :=
  ∀ n : Nat, n % 2 = 1 →
    n * refinement 64 n 6 % 2 ^ 64 = 1 ∧ n * refinement 32 n 5 % 2 ^ 32 = 1 ∧ refinement 32 n 6 = refinement 32 n 5 ∧
    ∀ W ∈ [32, 64], n * edInverse W n % 2 ^ W = 1 ∧ ∀ z, z < 2 ^ W → n * z % 2 ^ W = 1 → z = edInverse W n

/-- R169: on a slot built without violation, `EDTEST` decides divisibility: for every `k < 2^W` it writes 1 if `n` divides `k` and 0
otherwise, and changes nothing else. -/
def Obligations.EdtestDecidesDivisibility : Prop :=
  ∀ (s : State) (rd rs : RegIdx) (c : SlotIdx) (d : EdSlot), s.readEd c = some d → d.Valid →
    let k := (s.readReg rs).toNat
    k < 2 ^ d.w.bits →
    exec (.edtest rd rs c) s = .next { s with x := s.x.set rd.val (if d.n.toNat ∣ k then 1 else 0) rd.isLt }

/-- R173: on a slot built without violation and `k < 2^W`, `EDQUO` writes a `p` with `p * n mod 2^W = k`; if `n` divides `k` then
`p = k / n` and `p <= thr`, and if not then `p > thr` and `p` is not `floor(k / n)`, which is at most `thr`. -/
def Obligations.EdquoGivesQuotientOfMultiples : Prop :=
  ∀ (s : State) (rd rs : RegIdx) (c : SlotIdx) (d : EdSlot), s.readEd c = some d → d.Valid →
    let k := (s.readReg rs).toNat; let n := d.n.toNat
    k < 2 ^ d.w.bits →
    ∃ p, exec (.edquo rd rs c) s = .next { s with x := s.x.set rd.val (BitVec.ofNat 128 p) rd.isLt } ∧ p < 2 ^ d.w.bits ∧
      p * n % 2 ^ d.w.bits = k ∧ (n ∣ k → p = k / n ∧ p ≤ d.thr.toNat) ∧
      (¬ n ∣ k → d.thr.toNat < p ∧ p ≠ k / n ∧ k / n ≤ d.thr.toNat)

/-- R178: every step of the refinement for `n = 1` gives 1; a slot built from `n = 1` has `inv = 1` and `thr = 2^W - 1`; `EDTEST`
writes 1 and `EDQUO` writes `k`, for every `k < 2^W`. -/
def Obligations.DivisorOne : Prop :=
  (∀ W ∈ [32, 64], ∀ j, refinement W 1 j = 1) ∧
  ∀ (s : State) (rd rs : RegIdx) (c : SlotIdx) (d : EdSlot), s.readEd c = some d → d.Valid → d.n.toNat = 1 →
    d.inv.toNat = 1 ∧ d.thr.toNat = 2 ^ d.w.bits - 1 ∧
    ((s.readReg rs).toNat < 2 ^ d.w.bits →
      exec (.edtest rd rs c) s = .next { s with x := s.x.set rd.val 1 rd.isLt } ∧
      exec (.edquo rd rs c) s = .next { s with x := s.x.set rd.val (s.readReg rs) rd.isLt })

/-- R174 to R177: the read-outs of a full Exact Divisor slot write its field, zero-extended, and change nothing else; on an empty
slot they raise `CtxInvalid` on both builds. -/
def Obligations.EdReadOuts : Prop :=
  ∀ (s : State) (rd : RegIdx) (c : SlotIdx),
    let gives (v : Word) : Host.Outcome State Fault Refusal := .next { s with x := s.x.set rd.val v rd.isLt }
    (∀ d, s.readEd c = some d →
      exec (.edrdN rd c) s = gives (d.n.setWidth 128) ∧ exec (.edrdInv rd c) s = gives (d.inv.setWidth 128) ∧
      exec (.edrdThr rd c) s = gives (d.thr.setWidth 128) ∧
      exec (.edrdW rd c) s = gives (if d.w = .w32 then 32 else 64)) ∧
    (s.readEd c = none → ∀ i ∈ [Instr.edrdN rd c, .edrdInv rd c, .edrdThr rd c, .edrdW rd c],
      exec i s = .next { s with status := 0x00000201, fcmd := encode i })

/-! ### Arithmetic (spec/00_scope.md R13, spec/41_fastdiv.md R138, R150) -/

/-- R13, R138, R141, R150, R161: the model's arithmetic in naturals and integers is that of a `2W`-bit accumulator for the product of
`FDDIV`, and of `W`-bit words that wrap for `FDMOD`, the refinement and `EDQUO` (log 12). -/
def Obligations.WordArithmeticAgrees : Prop :=
  ∀ W ∈ [32, 64],
    (∀ a mul shamt : Nat, a < 2 ^ W → mul < 2 ^ W → a * mul < 2 ^ (2 * W) ∧
      fdDiv W mul shamt a = ((BitVec.ofNat (2 * W) a * BitVec.ofNat (2 * W) mul) >>> shamt).toNat % 2 ^ W) ∧
    (∀ a m mul shamt : Nat, fdMod W m mul shamt a =
      (BitVec.ofNat W a - BitVec.ofNat W (fdDiv W mul shamt a) * BitVec.ofNat W m).toNat) ∧
    (∀ n y : Nat, refine W n y =
      (BitVec.ofNat W y * (BitVec.ofNat W 2 - BitVec.ofNat W y * BitVec.ofNat W n)).toNat) ∧
    (∀ inv k : Nat, edQuo W inv k = (BitVec.ofNat W k * BitVec.ofNat W inv).toNat)
end

