-- ==== Sys2Proof/Laws/BitScan.lean ====
section
/-! SUPPORT. What the searches of the bit-scan functions find (spec/40_bitscan.md R101 to R104). -/

namespace Sys2Proof.Machine

/-- The search from the top finds the position `h` with `2^h <= v < 2^(h+1)` (R104), wherever it starts above it. -/
theorem highestSetBit_eq {v h n : Nat} (hlo : 2 ^ h ≤ v) (hhi : v < 2 ^ (h + 1)) (hn : h < n) : highestSetBit v n = h := by
  induction n with
  | zero => omega
  | succ n ih =>
    rcases Nat.lt_or_ge h n with hlt | hge
    · have : v < 2 ^ n := lt_of_lt_of_le hhi (Nat.pow_le_pow_right (by decide) hlt)
      simp [highestSetBit, Nat.testBit_lt_two_pow this, ih hlt]
    · obtain rfl : n = h := by omega
      have : v.testBit n = true := by
        rw [Nat.testBit_eq_decide_div_mod_eq]
        have h1 : v / 2 ^ n = 1 := by
          apply Nat.div_eq_of_lt_le <;> omega
        simp [h1]
      simp [highestSetBit, this]

/-- `clz_N(v) = N - 1 - h` (R102). -/
theorem clz_eq {v h N : Nat} (hlo : 2 ^ h ≤ v) (hhi : v < 2 ^ (h + 1)) (hN : h < N) : clz N v = N - 1 - h := by
  rw [clz, highestSetBit_eq hlo hhi hN]

/-- `ilog2_N(v) = h` (R104). -/
theorem ilog2_eq {v h N : Nat} (hlo : 2 ^ h ≤ v) (hhi : v < 2 ^ (h + 1)) (hN : h < N) : ilog2 N v = h := by
  rw [ilog2, clz_eq hlo hhi hN]
  omega

/-- The search from the bottom finds the `h` for which `2^h` divides `v` and `2^(h+1)` does not (R103, R120). -/
theorem lowestSetBit_eq {v h n : Nat} (hdvd : 2 ^ h ∣ v) (hnot : ¬ 2 ^ (h + 1) ∣ v) (hn : h < n) : lowestSetBit v n = h := by
  induction n generalizing v h with
  | zero => omega
  | succ n ih =>
    cases h with
    | zero =>
      have : v.testBit 0 = true := by
        rw [Nat.testBit_zero]
        simp at hnot ⊢
        omega
      simp [lowestSetBit, this]
    | succ h =>
      obtain ⟨k, rfl⟩ := hdvd
      have e : 2 ^ (h + 1) * k = 2 * (2 ^ h * k) := by ring
      have h0 : (2 ^ (h + 1) * k).testBit 0 = false := by
        rw [Nat.testBit_zero, e]
        simp
      have hd : 2 ^ (h + 1) * k / 2 = 2 ^ h * k := by
        rw [e]
        omega
      simp only [lowestSetBit, h0, hd]
      rw [ih (Dvd.intro k rfl) (fun hc => hnot ?_) (by omega)]
      · simp
      · obtain ⟨j, hj⟩ := hc
        exact ⟨j, by rw [e, hj]; ring⟩

/-- `ctz_N(v) = h` (R103). -/
theorem ctz_eq {v h N : Nat} (hdvd : 2 ^ h ∣ v) (hnot : ¬ 2 ^ (h + 1) ∣ v) (hN : h < N) : ctz N v = h :=
  lowestSetBit_eq hdvd hnot hN

/-- `popcount_N(v)` is the number of `j < N` with bit `j` of `v` equal to 1 (R101). -/
theorem popcount_eq (N v : Nat) : popcount N v = (List.range N).countP v.testBit := by
  unfold popcount
  induction N with
  | zero => rfl
  | succ n ih =>
    rw [setBitsBelow, ih, List.range_succ, List.countP_append]
    cases h : v.testBit n <;> simp [h]

end Sys2Proof.Machine
end

