-- ==== Sys2Proof/Laws/Decode.lean ====
section
/-! SUPPORT. The fields of a command word and their concatenation are inverse to each other (spec/30_encoding.md R71), and
a row's test compares field by field (R79). -/

namespace Sys2Proof

@[simp] theorem regOfBits_bitsOfReg (r : RegIdx) : regOfBits (bitsOfReg r) = r := rfl
@[simp] theorem bitsOfReg_regOfBits (b : BitVec 4) : bitsOfReg (regOfBits b) = b := rfl
@[simp] theorem slotOfBits_bitsOfSlot (c : SlotIdx) : slotOfBits (bitsOfSlot c) = c := rfl
@[simp] theorem bitsOfSlot_slotOfBits (b : BitVec 8) : bitsOfSlot (slotOfBits b) = b := rfl

namespace CmdFields

theorem ofWord_word (k : CmdFields) : ofWord k.word = k := by
  cases k
  simp only [ofWord, word, CmdFields.mk.injEq]
  refine ⟨?_, ?_, ?_, ?_, ?_, ?_⟩ <;>
  · ext i hi
    simp
    try grind

theorem word_ofWord (cmd : Cmd) : (ofWord cmd).word = cmd := by
  simp only [ofWord, word]
  ext i hi
  simp
  grind

theorem word_injective {a b : CmdFields} (h : a.word = b.word) : a = b := by
  rw [← ofWord_word a, h, ofWord_word]

/-- The field by field AND. -/
def and (a b : CmdFields) : CmdFields :=
  ⟨a.op &&& b.op, a.w &&& b.w, a.rd &&& b.rd, a.rs &&& b.rs, a.f &&& b.f, a.c &&& b.c⟩

theorem word_and (a b : CmdFields) : a.word &&& b.word = (a.and b).word := by
  simp only [word, and]
  rw [BitVec.and_append, BitVec.and_append, BitVec.and_append, BitVec.and_append, BitVec.and_append]

end CmdFields

/-- A row matches a word exactly when the masked fields are the pattern's fields. -/
theorem Row.matches_iff (r : Row) (cmd : Cmd) :
    r.matches cmd = true ↔ (CmdFields.ofWord cmd).and (.ofWord r.mask) = .ofWord r.pattern := by
  have h : cmd &&& r.mask = ((CmdFields.ofWord cmd).and (.ofWord r.mask)).word := by
    rw [← CmdFields.word_and, CmdFields.word_ofWord, CmdFields.word_ofWord]
  rw [Row.matches, beq_iff_eq, h]
  constructor
  · intro e
    rw [← e, CmdFields.ofWord_word]
  · intro e
    rw [e, CmdFields.word_ofWord]

end Sys2Proof
end

