-- ==== Sys2Proof/Laws/State.lean ====
section
/-! SUPPORT. One lemma for each field of State and each update of it, true by rfl, so that no later proof unfolds a record update. -/

namespace Sys2Proof.Machine

variable (s : State)

/-! ### `writeReg` (R22) -/

@[simp] theorem writeReg_x (r : RegIdx) (v : Word) : (s.writeReg r v).x = s.x.set r.val v r.isLt := rfl
@[simp] theorem writeReg_fd (r : RegIdx) (v : Word) : (s.writeReg r v).fd = s.fd := rfl
@[simp] theorem writeReg_ed (r : RegIdx) (v : Word) : (s.writeReg r v).ed = s.ed := rfl
@[simp] theorem writeReg_status (r : RegIdx) (v : Word) : (s.writeReg r v).status = s.status := rfl
@[simp] theorem writeReg_fcmd (r : RegIdx) (v : Word) : (s.writeReg r v).fcmd = s.fcmd := rfl
@[simp] theorem writeReg_checked (r : RegIdx) (v : Word) : (s.writeReg r v).checked = s.checked := rfl
@[simp] theorem writeReg_pending (r : RegIdx) (v : Word) : (s.writeReg r v).pending = s.pending := rfl
@[simp] theorem writeReg_returned (r : RegIdx) (v : Word) : (s.writeReg r v).returned = s.returned := rfl
@[simp] theorem writeReg_draws (r : RegIdx) (v : Word) : (s.writeReg r v).draws = s.draws := rfl

/-! ### `writeFd` (R29) -/

@[simp] theorem writeFd_x (c : SlotIdx) (d : FdSlot) : (s.writeFd c d).x = s.x := rfl
@[simp] theorem writeFd_fd (c : SlotIdx) (d : FdSlot) : (s.writeFd c d).fd = s.fd.set c.val (some d) c.isLt := rfl
@[simp] theorem writeFd_ed (c : SlotIdx) (d : FdSlot) : (s.writeFd c d).ed = s.ed := rfl
@[simp] theorem writeFd_status (c : SlotIdx) (d : FdSlot) : (s.writeFd c d).status = s.status := rfl
@[simp] theorem writeFd_fcmd (c : SlotIdx) (d : FdSlot) : (s.writeFd c d).fcmd = s.fcmd := rfl
@[simp] theorem writeFd_checked (c : SlotIdx) (d : FdSlot) : (s.writeFd c d).checked = s.checked := rfl
@[simp] theorem writeFd_pending (c : SlotIdx) (d : FdSlot) : (s.writeFd c d).pending = s.pending := rfl
@[simp] theorem writeFd_returned (c : SlotIdx) (d : FdSlot) : (s.writeFd c d).returned = s.returned := rfl
@[simp] theorem writeFd_draws (c : SlotIdx) (d : FdSlot) : (s.writeFd c d).draws = s.draws := rfl

/-! ### `writeEd` (R29) -/

@[simp] theorem writeEd_x (c : SlotIdx) (d : EdSlot) : (s.writeEd c d).x = s.x := rfl
@[simp] theorem writeEd_fd (c : SlotIdx) (d : EdSlot) : (s.writeEd c d).fd = s.fd := rfl
@[simp] theorem writeEd_ed (c : SlotIdx) (d : EdSlot) : (s.writeEd c d).ed = s.ed.set c.val (some d) c.isLt := rfl
@[simp] theorem writeEd_status (c : SlotIdx) (d : EdSlot) : (s.writeEd c d).status = s.status := rfl
@[simp] theorem writeEd_fcmd (c : SlotIdx) (d : EdSlot) : (s.writeEd c d).fcmd = s.fcmd := rfl
@[simp] theorem writeEd_checked (c : SlotIdx) (d : EdSlot) : (s.writeEd c d).checked = s.checked := rfl
@[simp] theorem writeEd_pending (c : SlotIdx) (d : EdSlot) : (s.writeEd c d).pending = s.pending := rfl
@[simp] theorem writeEd_returned (c : SlotIdx) (d : EdSlot) : (s.writeEd c d).returned = s.returned := rfl
@[simp] theorem writeEd_draws (c : SlotIdx) (d : EdSlot) : (s.writeEd c d).draws = s.draws := rfl

/-! ### `raise` (R196) -/

@[simp] theorem raise_x (cause : Cause) (cmd : Cmd) : (raise cause cmd s).x = s.x := rfl
@[simp] theorem raise_fd (cause : Cause) (cmd : Cmd) : (raise cause cmd s).fd = s.fd := rfl
@[simp] theorem raise_ed (cause : Cause) (cmd : Cmd) : (raise cause cmd s).ed = s.ed := rfl
@[simp] theorem raise_status (cause : Cause) (cmd : Cmd) : (raise cause cmd s).status = statusOf cause := rfl
@[simp] theorem raise_fcmd (cause : Cause) (cmd : Cmd) : (raise cause cmd s).fcmd = cmd := rfl
@[simp] theorem raise_checked (cause : Cause) (cmd : Cmd) : (raise cause cmd s).checked = s.checked := rfl
@[simp] theorem raise_pending (cause : Cause) (cmd : Cmd) : (raise cause cmd s).pending = s.pending := rfl
@[simp] theorem raise_returned (cause : Cause) (cmd : Cmd) : (raise cause cmd s).returned = s.returned := rfl
@[simp] theorem raise_draws (cause : Cause) (cmd : Cmd) : (raise cause cmd s).draws = s.draws := rfl

/-! ### `draw` (R17) -/

@[simp] theorem draw_x (bits : Nat) : (s.draw bits).2.x = s.x := rfl
@[simp] theorem draw_fd (bits : Nat) : (s.draw bits).2.fd = s.fd := rfl
@[simp] theorem draw_ed (bits : Nat) : (s.draw bits).2.ed = s.ed := rfl
@[simp] theorem draw_status (bits : Nat) : (s.draw bits).2.status = s.status := rfl
@[simp] theorem draw_fcmd (bits : Nat) : (s.draw bits).2.fcmd = s.fcmd := rfl
@[simp] theorem draw_checked (bits : Nat) : (s.draw bits).2.checked = s.checked := rfl
@[simp] theorem draw_pending (bits : Nat) : (s.draw bits).2.pending = s.pending := rfl
@[simp] theorem draw_returned (bits : Nat) : (s.draw bits).2.returned = s.returned := rfl
@[simp] theorem draw_draws (bits : Nat) : (s.draw bits).2.draws = s.draws + 1 := rfl

/-! ### `resetBlock` (R35) -/

@[simp] theorem resetBlock_x : s.resetBlock.x = Vector.replicate 16 0 := rfl
@[simp] theorem resetBlock_fd : s.resetBlock.fd = Vector.replicate 256 none := rfl
@[simp] theorem resetBlock_ed : s.resetBlock.ed = Vector.replicate 256 none := rfl
@[simp] theorem resetBlock_status : s.resetBlock.status = 0 := rfl
@[simp] theorem resetBlock_fcmd : s.resetBlock.fcmd = 0 := rfl
@[simp] theorem resetBlock_checked : s.resetBlock.checked = s.checked := rfl
@[simp] theorem resetBlock_pending : s.resetBlock.pending = s.pending := rfl
@[simp] theorem resetBlock_returned : s.resetBlock.returned = s.returned := rfl
@[simp] theorem resetBlock_draws : s.resetBlock.draws = s.draws := rfl

end Sys2Proof.Machine
end

