-- ==== Sys2Proof/Laws/Ops.lean ====
section
/-! SUPPORT. What each named operation does, said once: register and slot access, the control registers, fault entry,
violations, draws, and the templates of the commands. Proofs cite these and do not unfold the operations. -/

namespace Sys2Proof.Machine

variable (s : State)

/-! ### Registers and slots -/

@[simp] theorem readReg_writeReg_self (r : RegIdx) (v : Word) : (s.writeReg r v).readReg r = v := by
  simp [State.readReg]

theorem readReg_writeReg_ne {r r' : RegIdx} (h : r' ≠ r) (v : Word) : (s.writeReg r v).readReg r' = s.readReg r' := by
  have hv : r.val ≠ r'.val := fun e => h (Fin.ext e.symm)
  simp [State.readReg, Vector.getElem_set_ne _ _ hv]

@[simp] theorem readFd_writeFd_self (c : SlotIdx) (d : FdSlot) : (s.writeFd c d).readFd c = some d := by
  simp [State.readFd]

theorem readFd_writeFd_ne {c c' : SlotIdx} (h : c' ≠ c) (d : FdSlot) : (s.writeFd c d).readFd c' = s.readFd c' := by
  have hv : c.val ≠ c'.val := fun e => h (Fin.ext e.symm)
  simp [State.readFd, Vector.getElem_set_ne _ _ hv]

@[simp] theorem readEd_writeEd_self (c : SlotIdx) (d : EdSlot) : (s.writeEd c d).readEd c = some d := by
  simp [State.readEd]

theorem readEd_writeEd_ne {c c' : SlotIdx} (h : c' ≠ c) (d : EdSlot) : (s.writeEd c d).readEd c' = s.readEd c' := by
  have hv : c.val ≠ c'.val := fun e => h (Fin.ext e.symm)
  simp [State.readEd, Vector.getElem_set_ne _ _ hv]

@[simp] theorem readReg_writeFd (c : SlotIdx) (d : FdSlot) (r : RegIdx) : (s.writeFd c d).readReg r = s.readReg r := rfl
@[simp] theorem readReg_writeEd (c : SlotIdx) (d : EdSlot) (r : RegIdx) : (s.writeEd c d).readReg r = s.readReg r := rfl
@[simp] theorem readReg_raise (cause : Cause) (cmd : Cmd) (r : RegIdx) : (raise cause cmd s).readReg r = s.readReg r := rfl
@[simp] theorem readFd_writeReg (r : RegIdx) (v : Word) (c : SlotIdx) : (s.writeReg r v).readFd c = s.readFd c := rfl
@[simp] theorem readFd_writeEd (c' : SlotIdx) (d : EdSlot) (c : SlotIdx) : (s.writeEd c' d).readFd c = s.readFd c := rfl
@[simp] theorem readFd_raise (cause : Cause) (cmd : Cmd) (c : SlotIdx) : (raise cause cmd s).readFd c = s.readFd c := rfl
@[simp] theorem readEd_writeReg (r : RegIdx) (v : Word) (c : SlotIdx) : (s.writeReg r v).readEd c = s.readEd c := rfl
@[simp] theorem readEd_writeFd (c' : SlotIdx) (d : FdSlot) (c : SlotIdx) : (s.writeFd c' d).readEd c = s.readEd c := rfl
@[simp] theorem readEd_raise (cause : Cause) (cmd : Cmd) (c : SlotIdx) : (raise cause cmd s).readEd c = s.readEd c := rfl

theorem readReg_resetOn (checked : Bool) (r : RegIdx) : (State.resetOn checked).readReg r = 0 := by
  simp [State.readReg, State.resetOn]

theorem readFd_resetOn (checked : Bool) (c : SlotIdx) : (State.resetOn checked).readFd c = none := by
  simp [State.readFd, State.resetOn]

theorem readEd_resetOn (checked : Bool) (c : SlotIdx) : (State.resetOn checked).readEd c = none := by
  simp [State.readEd, State.resetOn]

theorem operand_lt (rs : RegIdx) : s.operand rs < 2 ^ 128 := (s.readReg rs).isLt

theorem writeResult_eq (rd : RegIdx) (v : Nat) : s.writeResult rd v = s.writeReg rd (BitVec.ofNat 128 v) := rfl

/-! ### The control registers (R32, R191) -/

@[simp] theorem statusFault_statusOf (cause : Cause) : statusFault (statusOf cause) = true := by
  cases cause <;> decide

@[simp] theorem statusCause_statusOf (cause : Cause) : statusCause (statusOf cause) = cause.code := by
  cases cause <;> decide

theorem statusOf_injective {a b : Cause} (h : statusOf a = statusOf b) : a = b := by
  cases a <;> cases b <;> first | rfl | exact absurd h (by decide)

@[simp] theorem halted_raise (cause : Cause) (cmd : Cmd) : (raise cause cmd s).halted = true := by
  simp [State.halted]

@[simp] theorem halted_writeReg (r : RegIdx) (v : Word) : (s.writeReg r v).halted = s.halted := rfl
@[simp] theorem halted_writeFd (c : SlotIdx) (d : FdSlot) : (s.writeFd c d).halted = s.halted := rfl
@[simp] theorem halted_writeEd (c : SlotIdx) (d : EdSlot) : (s.writeEd c d).halted = s.halted := rfl
@[simp] theorem halted_resetBlock : s.resetBlock.halted = false := by simp [State.halted, statusFault]

/-! ### Violations and draws -/

theorem violate_checked (h : s.checked = true) (cause : Cause) (cmd : Cmd) (u : State → State) :
    violate cause cmd u s = raise cause cmd s := by simp [violate, h]

theorem violate_unchecked (h : s.checked = false) (cause : Cause) (cmd : Cmd) (u : State → State) :
    violate cause cmd u s = u s := by simp [violate, h]

/-- A violation either faults, on a checked build, or has the unchecked outcome, on an unchecked one. -/
theorem violate_cases (cause : Cause) (cmd : Cmd) (u : State → State) :
    (s.checked = true ∧ violate cause cmd u s = raise cause cmd s) ∨ (s.checked = false ∧ violate cause cmd u s = u s) := by
  cases h : s.checked
  · exact .inr ⟨rfl, violate_unchecked s h ..⟩
  · exact .inl ⟨rfl, violate_checked s h ..⟩

theorem drawReg_eq (bits : Nat) (rd : RegIdx) :
    drawReg bits rd s = ({ s with draws := s.draws + 1 } : State).writeReg rd ((Config.unspec bits s.draws).setWidth 128) := rfl

theorem drawFd_eq (w : WordWidth) (c : SlotIdx) :
    drawFd w c s = ({ s with draws := s.draws + 3 } : State).writeFd c
      { w := w, m := (Config.unspec w.bits s.draws).setWidth 64,
        mul := (Config.unspec w.bits (s.draws + 1)).setWidth 64, shamt := Config.unspec 7 (s.draws + 2) } := rfl

theorem drawEd_eq (w : WordWidth) (c : SlotIdx) :
    drawEd w c s = ({ s with draws := s.draws + 3 } : State).writeEd c
      { w := w, n := (Config.unspec w.bits s.draws).setWidth 64,
        inv := (Config.unspec w.bits (s.draws + 1)).setWidth 64,
        thr := (Config.unspec w.bits (s.draws + 2)).setWidth 64 } := rfl

/-! ### The templates -/

section Templates
variable {s}

theorem scan_range {N : Nat} {rs : RegIdx} (h : 2 ^ N ≤ s.operand rs) (F : Nat → Nat) (z : Bool) (cmd : Cmd) (rd : RegIdx) :
    scan N F z cmd rd rs s = violate .operandRange cmd (drawReg 32 rd) s := by simp [scan, h]

theorem scan_zero {N : Nat} {rs : RegIdx} (h : s.operand rs = 0) (F : Nat → Nat) (cmd : Cmd) (rd : RegIdx) :
    scan N F true cmd rd rs s = violate .zeroInput cmd (drawReg 32 rd) s := by simp [scan, h]

theorem scan_result {N : Nat} {z : Bool} {rs : RegIdx} (h : s.operand rs < 2 ^ N) (hz : z = true → s.operand rs ≠ 0)
    (F : Nat → Nat) (cmd : Cmd) (rd : RegIdx) : scan N F z cmd rd rs s = s.writeResult rd (F (s.operand rs)) := by
  have h1 : ¬ 2 ^ N ≤ s.operand rs := by omega
  simp only [scan, h1, if_false]
  exact if_neg fun e => hz e.1 e.2

/-- A bit-scan command has its range violation, its zero violation, or its result. -/
theorem scan_cases (N : Nat) (F : Nat → Nat) (z : Bool) (cmd : Cmd) (rd rs : RegIdx) :
    (2 ^ N ≤ s.operand rs ∧ scan N F z cmd rd rs s = violate .operandRange cmd (drawReg 32 rd) s) ∨
    (z = true ∧ s.operand rs = 0 ∧ scan N F z cmd rd rs s = violate .zeroInput cmd (drawReg 32 rd) s) ∨
    (s.operand rs < 2 ^ N ∧ (z = true → s.operand rs ≠ 0) ∧ scan N F z cmd rd rs s = s.writeResult rd (F (s.operand rs))) := by
  by_cases h : 2 ^ N ≤ s.operand rs
  · exact .inl ⟨h, scan_range h ..⟩
  by_cases hz : z = true ∧ s.operand rs = 0
  · obtain ⟨rfl, h0⟩ := hz
    exact .inr (.inl ⟨rfl, h0, scan_zero h0 ..⟩)
  · have hz' : z = true → s.operand rs ≠ 0 := fun e e0 => hz ⟨e, e0⟩
    exact .inr (.inr ⟨by omega, hz', scan_result (by omega) hz' ..⟩)

section Slot
variable {α : Type} {d : α}

@[simp] theorem query_empty (width : α → WordWidth) (drawn : Nat → Nat) (value : α → Nat → Nat) (cmd : Cmd) (rd rs : RegIdx) :
    query none width drawn value cmd rd rs s = raise .ctxInvalid cmd s := rfl

theorem query_range {width : α → WordWidth} {rs : RegIdx} (h : 2 ^ (width d).bits ≤ s.operand rs) (drawn : Nat → Nat)
    (value : α → Nat → Nat) (cmd : Cmd) (rd : RegIdx) : query (some d) width drawn value cmd rd rs s =
      violate .operandRange cmd (drawReg (drawn (width d).bits) rd) s := by simp [query, h]

theorem query_result {width : α → WordWidth} {rs : RegIdx} (h : s.operand rs < 2 ^ (width d).bits) (drawn : Nat → Nat)
    (value : α → Nat → Nat) (cmd : Cmd) (rd : RegIdx) : query (some d) width drawn value cmd rd rs s =
      s.writeResult rd (value d (s.operand rs)) := by
  have h1 : ¬ 2 ^ (width d).bits ≤ s.operand rs := by omega
  simp [query, h1]

/-- A query finds its slot empty, or violates the range, or has its result. -/
theorem query_cases (slot : Option α) (width : α → WordWidth) (drawn : Nat → Nat) (value : α → Nat → Nat) (cmd : Cmd)
    (rd rs : RegIdx) :
    (slot = none ∧ query slot width drawn value cmd rd rs s = raise .ctxInvalid cmd s) ∨
    (∃ d, slot = some d ∧ 2 ^ (width d).bits ≤ s.operand rs ∧ query slot width drawn value cmd rd rs s =
      violate .operandRange cmd (drawReg (drawn (width d).bits) rd) s) ∨
    (∃ d, slot = some d ∧ s.operand rs < 2 ^ (width d).bits ∧ query slot width drawn value cmd rd rs s =
      s.writeResult rd (value d (s.operand rs))) := by
  cases slot with
  | none => exact .inl ⟨rfl, rfl⟩
  | some d =>
    by_cases h : 2 ^ (width d).bits ≤ s.operand rs
    · exact .inr (.inl ⟨d, rfl, h, query_range h ..⟩)
    · exact .inr (.inr ⟨d, rfl, by omega, query_result (by omega) ..⟩)

@[simp] theorem readOut_empty (value : α → Nat) (cmd : Cmd) (rd : RegIdx) :
    readOut none value cmd rd s = raise .ctxInvalid cmd s := rfl

@[simp] theorem readOut_full (value : α → Nat) (cmd : Cmd) (rd : RegIdx) :
    readOut (some d) value cmd rd s = s.writeResult rd (value d) := rfl

/-- A read-out finds its slot empty or has its result. -/
theorem readOut_cases (slot : Option α) (value : α → Nat) (cmd : Cmd) (rd : RegIdx) :
    (slot = none ∧ readOut slot value cmd rd s = raise .ctxInvalid cmd s) ∨
    (∃ d, slot = some d ∧ readOut slot value cmd rd s = s.writeResult rd (value d)) := by
  cases slot with
  | none => exact .inl ⟨rfl, rfl⟩
  | some d => exact .inr ⟨d, rfl, rfl⟩

end Slot

/-- `FDNEW` has its range violation, its zero divisor, or its instance. -/
theorem fdNew_cases (w : WordWidth) (cmd : Cmd) (rs : RegIdx) (c : SlotIdx) :
    (2 ^ w.bits ≤ s.operand rs ∧ fdNew w cmd rs c s = violate .operandRange cmd (drawFd w c) s) ∨
    (s.operand rs = 0 ∧ fdNew w cmd rs c s = violate .divisorZero cmd (drawFd w c) s) ∨
    (0 < s.operand rs ∧ s.operand rs < 2 ^ w.bits ∧ fdNew w cmd rs c s = s.writeFd c (fdInstance w (s.operand rs))) := by
  by_cases h : 2 ^ w.bits ≤ s.operand rs
  · exact .inl ⟨h, by simp [fdNew, h]⟩
  by_cases h0 : s.operand rs = 0
  · exact .inr (.inl ⟨h0, by simp [fdNew, h0]⟩)
  · exact .inr (.inr ⟨by omega, by omega, by simp [fdNew, h, h0]⟩)

/-- `EDNEW` has its range violation, its zero divisor, its even divisor, or its instance. -/
theorem edNew_cases (w : WordWidth) (cmd : Cmd) (rs : RegIdx) (c : SlotIdx) :
    (2 ^ w.bits ≤ s.operand rs ∧ edNew w cmd rs c s = violate .operandRange cmd (drawEd w c) s) ∨
    (s.operand rs = 0 ∧ edNew w cmd rs c s = violate .divisorZero cmd (drawEd w c) s) ∨
    (s.operand rs < 2 ^ w.bits ∧ s.operand rs ≠ 0 ∧ s.operand rs % 2 = 0 ∧
      edNew w cmd rs c s = violate .divisorEven cmd (drawEd w c) s) ∨
    (s.operand rs < 2 ^ w.bits ∧ s.operand rs % 2 = 1 ∧ edNew w cmd rs c s = s.writeEd c (edInstance w (s.operand rs))) := by
  by_cases h : 2 ^ w.bits ≤ s.operand rs
  · exact .inl ⟨h, by simp [edNew, h]⟩
  by_cases h0 : s.operand rs = 0
  · exact .inr (.inl ⟨h0, by simp [edNew, h0]⟩)
  by_cases h2 : s.operand rs % 2 = 0
  · exact .inr (.inr (.inl ⟨by omega, h0, h2, by simp [edNew, h, h0, h2]⟩))
  · exact .inr (.inr (.inr ⟨by omega, by omega, by simp [edNew, h, h0, h2]⟩))

end Templates

end Sys2Proof.Machine
end

