-- ==== Sys2Proof/Laws/Exec.lean ====
section
/-! SUPPORT. Everything an executed command can do, said once: it answers a next state, and that state is one of the seven
effects below (spec/20_memory.md R56). Proofs over all commands split on the effect and do not unfold `exec`. -/

namespace Sys2Proof.Machine

/-- The effects of a command `i` executed in the state `s`: "either writes `x[rd]`, or writes one slot, or performs fault
entry, and nothing else" (R56); on an unchecked build a write may be of drawn values (R18). -/
inductive Effect (i : Instr) (s : State) : State → Prop where
  /-- fault entry, with a cause the table of R192 allows -/
  | fault (cause : Cause) (h : cause ∈ raisable s.checked i) : Effect i s (raise cause (encode i) s)
  /-- the result of a command that has a destination -/
  | result (rd : RegIdx) (v : Word) (h : i.dest = some rd) : Effect i s (s.writeReg rd v)
  /-- the unchecked outcome of a command that has a destination -/
  | drawn (rd : RegIdx) (bits : Nat) (h : i.dest = some rd) (hc : s.checked = false) : Effect i s (drawReg bits rd s)
  /-- the instance `FDNEW` stores -/
  | newFd (w : WordWidth) (m : Nat) (c : SlotIdx) (h : i.dest = none) (hs : i.fdSlot = some c) (hm : 0 < m)
      (hw : m < 2 ^ w.bits) : Effect i s (s.writeFd c (fdInstance w m))
  /-- the unchecked outcome of `FDNEW` -/
  | drawnFd (w : WordWidth) (c : SlotIdx) (h : i.dest = none) (hs : i.fdSlot = some c) (hc : s.checked = false) :
      Effect i s (drawFd w c s)
  /-- the instance `EDNEW` stores -/
  | newEd (w : WordWidth) (n : Nat) (c : SlotIdx) (h : i.dest = none) (hs : i.edSlot = some c) (hn : n % 2 = 1)
      (hw : n < 2 ^ w.bits) : Effect i s (s.writeEd c (edInstance w n))
  /-- the unchecked outcome of `EDNEW` -/
  | drawnEd (w : WordWidth) (c : SlotIdx) (h : i.dest = none) (hs : i.edSlot = some c) (hc : s.checked = false) :
      Effect i s (drawEd w c s)

section
variable {i : Instr} {s : State}

theorem Effect.of_violate_reg {cause : Cause} (bits : Nat) {rd : RegIdx} (hd : i.dest = some rd)
    (hr : s.checked = true → cause ∈ raisable s.checked i) :
    Effect i s (violate cause (encode i) (drawReg bits rd) s) := by
  rcases violate_cases s cause (encode i) (drawReg bits rd) with ⟨hc, e⟩ | ⟨hc, e⟩
  · rw [e]; exact .fault _ (hr hc)
  · rw [e]; exact .drawn _ _ hd hc

theorem Effect.of_scan (N : Nat) (F : Nat → Nat) (z : Bool) {rd rs : RegIdx} (hd : i.dest = some rd)
    (h1 : N < 128 → s.checked = true → .operandRange ∈ raisable s.checked i)
    (h2 : z = true → s.checked = true → .zeroInput ∈ raisable s.checked i) (hN : N ≤ 128) :
    Effect i s (scan N F z (encode i) rd rs s) := by
  rcases scan_cases (s := s) N F z (encode i) rd rs with ⟨h, e⟩ | ⟨hz, -, e⟩ | ⟨-, -, e⟩
  · rw [e]
    refine .of_violate_reg _ hd (h1 ?_)
    rcases Nat.lt_or_ge N 128 with hlt | hge
    · exact hlt
    · obtain rfl : N = 128 := by omega
      exact absurd h (Nat.not_le_of_lt (operand_lt s rs))
  · rw [e]; exact .of_violate_reg _ hd (h2 hz)
  · rw [e]; exact .result _ _ hd

theorem Effect.of_query {α : Type} (slot : Option α) (width : α → WordWidth) (drawn : Nat → Nat) (value : α → Nat → Nat)
    {rd rs : RegIdx} (hd : i.dest = some rd) (h1 : .ctxInvalid ∈ raisable s.checked i)
    (h2 : s.checked = true → .operandRange ∈ raisable s.checked i) :
    Effect i s (query slot width drawn value (encode i) rd rs s) := by
  rcases query_cases (s := s) slot width drawn value (encode i) rd rs with ⟨-, e⟩ | ⟨d, -, -, e⟩ | ⟨d, -, -, e⟩
  · rw [e]; exact .fault _ h1
  · rw [e]; exact .of_violate_reg _ hd h2
  · rw [e]; exact .result _ _ hd

theorem Effect.of_readOut {α : Type} (slot : Option α) (value : α → Nat) {rd : RegIdx} (hd : i.dest = some rd)
    (h1 : .ctxInvalid ∈ raisable s.checked i) : Effect i s (readOut slot value (encode i) rd s) := by
  rcases readOut_cases (s := s) slot value (encode i) rd with ⟨-, e⟩ | ⟨d, -, e⟩
  · rw [e]; exact .fault _ h1
  · rw [e]; exact .result _ _ hd

theorem Effect.of_fdNew (w : WordWidth) {rs : RegIdx} {c : SlotIdx} (hd : i.dest = none) (hs : i.fdSlot = some c)
    (h1 : s.checked = true → .operandRange ∈ raisable s.checked i)
    (h2 : s.checked = true → .divisorZero ∈ raisable s.checked i) : Effect i s (fdNew w (encode i) rs c s) := by
  have key : ∀ cause, (s.checked = true → cause ∈ raisable s.checked i) →
      Effect i s (violate cause (encode i) (drawFd w c) s) := fun cause hr => by
    rcases violate_cases s cause (encode i) (drawFd w c) with ⟨hc, e⟩ | ⟨hc, e⟩
    · rw [e]; exact .fault _ (hr hc)
    · rw [e]; exact .drawnFd _ _ hd hs hc
  rcases fdNew_cases (s := s) w (encode i) rs c with ⟨-, e⟩ | ⟨-, e⟩ | ⟨hm, hw, e⟩
  · rw [e]; exact key _ h1
  · rw [e]; exact key _ h2
  · rw [e]; exact .newFd _ _ _ hd hs hm hw

theorem Effect.of_edNew (w : WordWidth) {rs : RegIdx} {c : SlotIdx} (hd : i.dest = none) (hs : i.edSlot = some c)
    (h1 : s.checked = true → .operandRange ∈ raisable s.checked i)
    (h2 : s.checked = true → .divisorZero ∈ raisable s.checked i)
    (h3 : s.checked = true → .divisorEven ∈ raisable s.checked i) : Effect i s (edNew w (encode i) rs c s) := by
  have key : ∀ cause, (s.checked = true → cause ∈ raisable s.checked i) →
      Effect i s (violate cause (encode i) (drawEd w c) s) := fun cause hr => by
    rcases violate_cases s cause (encode i) (drawEd w c) with ⟨hc, e⟩ | ⟨hc, e⟩
    · rw [e]; exact .fault _ (hr hc)
    · rw [e]; exact .drawnEd _ _ hd hs hc
  rcases edNew_cases (s := s) w (encode i) rs c with ⟨-, e⟩ | ⟨-, e⟩ | ⟨-, -, -, e⟩ | ⟨hw, hn, e⟩
  · rw [e]; exact key _ h1
  · rw [e]; exact key _ h2
  · rw [e]; exact key _ h3
  · rw [e]; exact .newEd _ _ _ hd hs hn hw

end

/-- Every command answers a next state, and that state is one of its effects. -/
theorem exec_effect (i : Instr) (s : State) : ∃ t, exec i s = .next t ∧ Effect i s t := by
  cases i
  case popcnt32 => exact ⟨_, rfl, .of_scan _ _ _ rfl (fun _ hc => by simp [raisable, hc]) (by simp) (by decide)⟩
  case popcnt64 => exact ⟨_, rfl, .of_scan _ _ _ rfl (fun _ hc => by simp [raisable, hc]) (by simp) (by decide)⟩
  case popcnt128 => exact ⟨_, rfl, .of_scan _ _ _ rfl (fun h => absurd h (by decide)) (by simp) (by decide)⟩
  case clz32 | clz64 | ctz32 | ctz64 | ilog2_32 | ilog2_64 =>
    exact ⟨_, rfl, .of_scan _ _ _ rfl (fun _ hc => by simp [raisable, hc]) (fun _ hc => by simp [raisable, hc]) (by decide)⟩
  case clz128 | ctz128 | ilog2_128 =>
    exact ⟨_, rfl, .of_scan _ _ _ rfl (fun h => absurd h (by decide)) (fun _ hc => by simp [raisable, hc]) (by decide)⟩
  case fdnew32 | fdnew64 =>
    exact ⟨_, rfl, .of_fdNew _ rfl rfl (fun hc => by simp [raisable, hc]) (fun hc => by simp [raisable, hc])⟩
  case fddiv | fdmod | edtest | edquo =>
    exact ⟨_, rfl, .of_query _ _ _ _ rfl (by simp [raisable]) (fun hc => by simp [raisable, hc])⟩
  case fdrdM | fdrdMul | fdrdShamt | fdrdW | edrdN | edrdInv | edrdThr | edrdW =>
    exact ⟨_, rfl, .of_readOut _ _ rfl (by simp [raisable])⟩
  case ednew32 | ednew64 =>
    exact ⟨_, rfl, .of_edNew _ rfl rfl (fun hc => by simp [raisable, hc]) (fun hc => by simp [raisable, hc])
      (fun hc => by simp [raisable, hc])⟩

theorem exec_cases {i : Instr} {s t : State} (h : exec i s = .next t) : Effect i s t := by
  obtain ⟨t', e, he⟩ := exec_effect i s
  rw [h] at e
  cases e
  exact he

end Sys2Proof.Machine
end

