-- ==== Sys2Proof/Laws/PerInstr.lean ====
section
/-! SUPPORT. The family EncodedFieldsLegal, one lemma for each command: the word of a command has legal fields, by the checks
that spec/30_encoding.md R72 to R76 and R80 state in prose and WellFormed.lean holds apart from the opcode map. -/

namespace Sys2Proof.Laws.EncodedFieldsLegal

/-- The fields of the command's word pass every check of R80. -/
def Statement (i : Instr) : Prop := (CmdFields.ofWord (encode i)).wellFormed = true

theorem formatS_legal (op : BitVec 8) (w : BitVec 4) (rd rs : RegIdx)
    (h : (CmdFields.wellFormed ⟨op, w, 0, 0, 0, 0⟩) = true) (hN : CmdFields.isNew ⟨op, w, 0, 0, 0, 0⟩ = false)
    (hG : CmdFields.isGet ⟨op, w, 0, 0, 0, 0⟩ = false) : (CmdFields.ofWord (formatS op w rd rs)).wellFormed = true := by
  rw [formatS, CmdFields.ofWord_word]
  simp_all [CmdFields.wellFormed, CmdFields.opAssigned, CmdFields.widthLegal, CmdFields.destLegal, CmdFields.sourceLegal,
    CmdFields.selectorLegal, CmdFields.slotLegal, CmdFields.isScan, CmdFields.isNew, CmdFields.isQuery, CmdFields.isGet]

theorem formatN_legal (op : BitVec 8) (w : BitVec 4) (rs : RegIdx) (c : SlotIdx)
    (h : (CmdFields.wellFormed ⟨op, w, 0, 0, 0, 0⟩) = true) (hS : CmdFields.isScan ⟨op, w, 0, 0, 0, 0⟩ = false)
    (hG : CmdFields.isGet ⟨op, w, 0, 0, 0, 0⟩ = false) : (CmdFields.ofWord (formatN op w rs c)).wellFormed = true := by
  rw [formatN, CmdFields.ofWord_word]
  simp_all [CmdFields.wellFormed, CmdFields.opAssigned, CmdFields.widthLegal, CmdFields.destLegal, CmdFields.sourceLegal,
    CmdFields.selectorLegal, CmdFields.slotLegal, CmdFields.isScan, CmdFields.isNew, CmdFields.isQuery, CmdFields.isGet]
  omega

theorem formatQ_legal (op : BitVec 8) (rd rs : RegIdx) (c : SlotIdx)
    (hQ : CmdFields.isQuery ⟨op, 0, 0, 0, 0, 0⟩ = true) (hS : CmdFields.isScan ⟨op, 0, 0, 0, 0, 0⟩ = false)
    (hN : CmdFields.isNew ⟨op, 0, 0, 0, 0, 0⟩ = false) (hG : CmdFields.isGet ⟨op, 0, 0, 0, 0, 0⟩ = false) :
    (CmdFields.ofWord (formatQ op rd rs c)).wellFormed = true := by
  rw [formatQ, CmdFields.ofWord_word]
  simp_all [CmdFields.wellFormed, CmdFields.opAssigned, CmdFields.widthLegal, CmdFields.destLegal, CmdFields.sourceLegal,
    CmdFields.selectorLegal, CmdFields.slotLegal, CmdFields.isScan, CmdFields.isNew, CmdFields.isQuery, CmdFields.isGet]
  omega

theorem formatG_legal (op : BitVec 8) (f : BitVec 4) (rd : RegIdx) (c : SlotIdx)
    (h : (CmdFields.wellFormed ⟨op, 0, 0, 0, f, 0⟩) = true) (hS : CmdFields.isScan ⟨op, 0, 0, 0, f, 0⟩ = false)
    (hN : CmdFields.isNew ⟨op, 0, 0, 0, f, 0⟩ = false) : (CmdFields.ofWord (formatG op f rd c)).wellFormed = true := by
  rw [formatG, CmdFields.ofWord_word]
  simp_all [CmdFields.wellFormed, CmdFields.opAssigned, CmdFields.widthLegal, CmdFields.destLegal, CmdFields.sourceLegal,
    CmdFields.selectorLegal, CmdFields.slotLegal, CmdFields.isScan, CmdFields.isNew, CmdFields.isQuery, CmdFields.isGet]
  omega

theorem popcnt32 (rd rs : RegIdx) : Statement (.popcnt32 rd rs) :=
  formatS_legal _ _ rd rs (by decide) (by decide) (by decide)

theorem popcnt64 (rd rs : RegIdx) : Statement (.popcnt64 rd rs) :=
  formatS_legal _ _ rd rs (by decide) (by decide) (by decide)

theorem popcnt128 (rd rs : RegIdx) : Statement (.popcnt128 rd rs) :=
  formatS_legal _ _ rd rs (by decide) (by decide) (by decide)

theorem clz32 (rd rs : RegIdx) : Statement (.clz32 rd rs) :=
  formatS_legal _ _ rd rs (by decide) (by decide) (by decide)

theorem clz64 (rd rs : RegIdx) : Statement (.clz64 rd rs) :=
  formatS_legal _ _ rd rs (by decide) (by decide) (by decide)

theorem clz128 (rd rs : RegIdx) : Statement (.clz128 rd rs) :=
  formatS_legal _ _ rd rs (by decide) (by decide) (by decide)

theorem ctz32 (rd rs : RegIdx) : Statement (.ctz32 rd rs) :=
  formatS_legal _ _ rd rs (by decide) (by decide) (by decide)

theorem ctz64 (rd rs : RegIdx) : Statement (.ctz64 rd rs) :=
  formatS_legal _ _ rd rs (by decide) (by decide) (by decide)

theorem ctz128 (rd rs : RegIdx) : Statement (.ctz128 rd rs) :=
  formatS_legal _ _ rd rs (by decide) (by decide) (by decide)

theorem ilog2_32 (rd rs : RegIdx) : Statement (.ilog2_32 rd rs) :=
  formatS_legal _ _ rd rs (by decide) (by decide) (by decide)

theorem ilog2_64 (rd rs : RegIdx) : Statement (.ilog2_64 rd rs) :=
  formatS_legal _ _ rd rs (by decide) (by decide) (by decide)

theorem ilog2_128 (rd rs : RegIdx) : Statement (.ilog2_128 rd rs) :=
  formatS_legal _ _ rd rs (by decide) (by decide) (by decide)

theorem fdnew32 (rs : RegIdx) (c : SlotIdx) : Statement (.fdnew32 rs c) :=
  formatN_legal _ _ rs c (by decide) (by decide) (by decide)

theorem fdnew64 (rs : RegIdx) (c : SlotIdx) : Statement (.fdnew64 rs c) :=
  formatN_legal _ _ rs c (by decide) (by decide) (by decide)

theorem ednew32 (rs : RegIdx) (c : SlotIdx) : Statement (.ednew32 rs c) :=
  formatN_legal _ _ rs c (by decide) (by decide) (by decide)

theorem ednew64 (rs : RegIdx) (c : SlotIdx) : Statement (.ednew64 rs c) :=
  formatN_legal _ _ rs c (by decide) (by decide) (by decide)

theorem fddiv (rd rs : RegIdx) (c : SlotIdx) : Statement (.fddiv rd rs c) :=
  formatQ_legal _ rd rs c (by decide) (by decide) (by decide) (by decide)

theorem fdmod (rd rs : RegIdx) (c : SlotIdx) : Statement (.fdmod rd rs c) :=
  formatQ_legal _ rd rs c (by decide) (by decide) (by decide) (by decide)

theorem edtest (rd rs : RegIdx) (c : SlotIdx) : Statement (.edtest rd rs c) :=
  formatQ_legal _ rd rs c (by decide) (by decide) (by decide) (by decide)

theorem edquo (rd rs : RegIdx) (c : SlotIdx) : Statement (.edquo rd rs c) :=
  formatQ_legal _ rd rs c (by decide) (by decide) (by decide) (by decide)

theorem fdrdM (rd : RegIdx) (c : SlotIdx) : Statement (.fdrdM rd c) :=
  formatG_legal _ _ rd c (by decide) (by decide) (by decide)

theorem fdrdMul (rd : RegIdx) (c : SlotIdx) : Statement (.fdrdMul rd c) :=
  formatG_legal _ _ rd c (by decide) (by decide) (by decide)

theorem fdrdShamt (rd : RegIdx) (c : SlotIdx) : Statement (.fdrdShamt rd c) :=
  formatG_legal _ _ rd c (by decide) (by decide) (by decide)

theorem fdrdW (rd : RegIdx) (c : SlotIdx) : Statement (.fdrdW rd c) :=
  formatG_legal _ _ rd c (by decide) (by decide) (by decide)

theorem edrdN (rd : RegIdx) (c : SlotIdx) : Statement (.edrdN rd c) :=
  formatG_legal _ _ rd c (by decide) (by decide) (by decide)

theorem edrdInv (rd : RegIdx) (c : SlotIdx) : Statement (.edrdInv rd c) :=
  formatG_legal _ _ rd c (by decide) (by decide) (by decide)

theorem edrdThr (rd : RegIdx) (c : SlotIdx) : Statement (.edrdThr rd c) :=
  formatG_legal _ _ rd c (by decide) (by decide) (by decide)

theorem edrdW (rd : RegIdx) (c : SlotIdx) : Statement (.edrdW rd c) :=
  formatG_legal _ _ rd c (by decide) (by decide) (by decide)

end Sys2Proof.Laws.EncodedFieldsLegal
end

