-- ==== Sys2Proof/Laws/Step.lean ====
section
/-! SUPPORT. What a step does, by the host's next transaction (spec/20_memory.md R52 to R57, R61). -/

namespace Sys2Proof.Machine

variable {s : State}

theorem step_idle (h : s.pending = []) : step s = .next s := by
  simp [step, nextTransaction, h]

theorem step_transact {t : Transaction} {rest : List Transaction} (h : s.pending = t :: rest) :
    step s = transact t { s with pending := rest } := by
  simp [step, nextTransaction, h]

theorem issue_halted (h : s.halted = true) (cmd : Cmd) : issue cmd s = .next s := by
  simp [issue, h]

theorem issue_illegal (h : s.halted = false) {cmd : Cmd} (hd : decode cmd = .error .illegalCommand) :
    issue cmd s = .next (raise .illegalCommand cmd s) := by
  simp [issue, h, hd]

theorem issue_command (h : s.halted = false) {cmd : Cmd} {i : Instr} (hd : decode cmd = .ok i) :
    issue cmd s = exec i s := by
  simp [issue, h, hd]

/-- Everything a transaction can do, each kind by its own rule. -/
theorem transact_cases (t : Transaction) (s : State) :
    (∃ j v, t = .hostWriteReg j v ∧ transact t s = .next (hostWriteReg j v s)) ∨
    (∃ j, t = .hostReadReg j ∧ transact t s = .next (hostReadReg j s)) ∨
    (∃ j, t = .hostReadCtl j ∧ transact t s = .next (hostReadCtl j s)) ∨
    (∃ cmd, t = .issue cmd ∧ s.halted = true ∧ transact t s = .next s) ∨
    (∃ cmd, t = .issue cmd ∧ s.halted = false ∧ decode cmd = .error .illegalCommand ∧
      transact t s = .next (raise .illegalCommand cmd s)) ∨
    (∃ cmd i s', t = .issue cmd ∧ s.halted = false ∧ decode cmd = .ok i ∧ exec i s = .next s' ∧ Effect i s s' ∧
      transact t s = .next s') ∨
    (t = .reset ∧ transact t s = .next s.resetBlock) := by
  cases t with
  | hostWriteReg j v => exact .inl ⟨j, v, rfl, rfl⟩
  | hostReadReg j => exact .inr (.inl ⟨j, rfl, rfl⟩)
  | hostReadCtl j => exact .inr (.inr (.inl ⟨j, rfl, rfl⟩))
  | reset => exact .inr (.inr (.inr (.inr (.inr (.inr ⟨rfl, rfl⟩)))))
  | issue cmd =>
    cases h : s.halted with
    | true => exact .inr (.inr (.inr (.inl ⟨cmd, rfl, rfl, issue_halted h cmd⟩)))
    | false =>
      cases hd : decode cmd with
      | error e =>
        cases e
        exact .inr (.inr (.inr (.inr (.inl ⟨cmd, rfl, rfl, hd, issue_illegal h hd⟩))))
      | ok i =>
        obtain ⟨s', e, he⟩ := exec_effect i s
        exact .inr (.inr (.inr (.inr (.inr (.inl ⟨cmd, i, s', rfl, rfl, hd, e, he, (issue_command h hd).trans e⟩)))))

end Sys2Proof.Machine
end

