-- ==== Sys2Proof/Tests/Slice0.lean ====
section
/-! SUPPORT. The model's own tests. Words are written out from spec/30_encoding.md, expected results are those of
spec/95_test_vectors.md (the id of the vector stands before each). The last part shows, for every obligation with hypotheses, a
concrete state and operands that meet them together. -/

namespace Sys2Proof.Machine

/-! ### Decoding: one word for each command, the fields `op w rd rs f c` from the top (R71, R77, R78) -/

/-- P1: 01 0 5 1 0 00. -/
theorem test_decode_popcnt32 : decode 0x01051000 = .ok (.popcnt32 5 1) := by decide
/-- V-BS-26: 01 1 3 1 0 00. -/
theorem test_decode_popcnt64 : decode 0x01131000 = .ok (.popcnt64 3 1) := by decide
/-- V-ENC-2: 01 2 F F 0 00. -/
theorem test_decode_popcnt128 : decode 0x012FF000 = .ok (.popcnt128 15 15) := by decide
/-- V-FLT-2: 02 0 3 0 0 00. -/
theorem test_decode_clz32 : decode 0x02030000 = .ok (.clz32 3 0) := by decide
/-- V-ENC-3: 02 1 3 1 0 00. -/
theorem test_decode_clz64 : decode 0x02131000 = .ok (.clz64 3 1) := by decide
/-- P1: 02 2 7 6 0 00. -/
theorem test_decode_clz128 : decode 0x02276000 = .ok (.clz128 7 6) := by decide
/-- P1: 03 0 2 1 0 00. -/
theorem test_decode_ctz32 : decode 0x03021000 = .ok (.ctz32 2 1) := by decide
/-- R71, R78: 03 1 4 9 0 00. -/
theorem test_decode_ctz64 : decode 0x03149000 = .ok (.ctz64 4 9) := by decide
/-- V-ENC-4: 03 2 8 6 0 00. -/
theorem test_decode_ctz128 : decode 0x03286000 = .ok (.ctz128 8 6) := by decide
/-- V-ENC-5: 04 0 4 1 0 00. -/
theorem test_decode_ilog2_32 : decode 0x04041000 = .ok (.ilog2_32 4 1) := by decide
/-- V-BS-25: 04 1 3 1 0 00. -/
theorem test_decode_ilog2_64 : decode 0x04131000 = .ok (.ilog2_64 3 1) := by decide
/-- P1: 04 2 A 6 0 00. -/
theorem test_decode_ilog2_128 : decode 0x042A6000 = .ok (.ilog2_128 10 6) := by decide
/-- V-ENC-6: 10 0 0 1 0 00. -/
theorem test_decode_fdnew32 : decode 0x10001000 = .ok (.fdnew32 1 0) := by decide
/-- V-ENC-7: 10 1 0 F 0 FF. -/
theorem test_decode_fdnew64 : decode 0x1010F0FF = .ok (.fdnew64 15 255) := by decide
/-- V-ENC-8: 11 0 3 2 0 00. -/
theorem test_decode_fddiv : decode 0x11032000 = .ok (.fddiv 3 2 0) := by decide
/-- V-ENC-9: 12 0 F E 0 C8. -/
theorem test_decode_fdmod : decode 0x120FE0C8 = .ok (.fdmod 15 14 200) := by decide
/-- V-ENC-10: 13 0 5 0 0 00. -/
theorem test_decode_fdrdM : decode 0x13050000 = .ok (.fdrdM 5 0) := by decide
/-- V-ENC-11: 13 0 5 0 1 00. -/
theorem test_decode_fdrdMul : decode 0x13050100 = .ok (.fdrdMul 5 0) := by decide
/-- V-ENC-12: 13 0 5 0 2 00. -/
theorem test_decode_fdrdShamt : decode 0x13050200 = .ok (.fdrdShamt 5 0) := by decide
/-- V-ENC-13: 13 0 5 0 3 00. -/
theorem test_decode_fdrdW : decode 0x13050300 = .ok (.fdrdW 5 0) := by decide
/-- P6: 20 0 0 1 0 0B. -/
theorem test_decode_ednew32 : decode 0x2000100B = .ok (.ednew32 1 11) := by decide
/-- V-ENC-14: 20 1 0 1 0 07. -/
theorem test_decode_ednew64 : decode 0x20101007 = .ok (.ednew64 1 7) := by decide
/-- V-ENC-15: 21 0 4 2 0 07. -/
theorem test_decode_edtest : decode 0x21042007 = .ok (.edtest 4 2 7) := by decide
/-- V-ENC-16: 22 0 8 7 0 0B. -/
theorem test_decode_edquo : decode 0x2208700B = .ok (.edquo 8 7 11) := by decide
/-- P3: 23 0 A 0 0 07. -/
theorem test_decode_edrdN : decode 0x230A0007 = .ok (.edrdN 10 7) := by decide
/-- V-ENC-17: 23 0 8 0 1 07. -/
theorem test_decode_edrdInv : decode 0x23080107 = .ok (.edrdInv 8 7) := by decide
/-- V-ENC-18: 23 0 9 0 2 07. -/
theorem test_decode_edrdThr : decode 0x23090207 = .ok (.edrdThr 9 7) := by decide
/-- P4: 23 0 4 0 3 00. -/
theorem test_decode_edrdW : decode 0x23040300 = .ok (.edrdW 4 0) := by decide

/-! ### Well-formedness: one ill-formed word for each check, which the check and the decoder refuse (R80) -/

/-- V-ENC-21: `op = 0x05` is unassigned. -/
theorem test_refuse_op :
    (CmdFields.ofWord 0x05000000).opAssigned = false ∧ decode 0x05000000 = .error .illegalCommand := by decide
/-- V-ENC-22: `CLZ` with `w = 3`. -/
theorem test_refuse_scan_width :
    (CmdFields.ofWord 0x02331000).widthLegal = false ∧ decode 0x02331000 = .error .illegalCommand := by decide
/-- V-ENC-25: `FDNEW` with `w = 2`. -/
theorem test_refuse_new_width :
    (CmdFields.ofWord 0x10201000).widthLegal = false ∧ decode 0x10201000 = .error .illegalCommand := by decide
/-- V-ENC-27: `FDDIV` with `w = 1`. -/
theorem test_refuse_query_width :
    (CmdFields.ofWord 0x11132000).widthLegal = false ∧ decode 0x11132000 = .error .illegalCommand := by decide
/-- V-ENC-26: `FDNEW.32` with `rd = 3`. -/
theorem test_refuse_dest :
    (CmdFields.ofWord 0x10031000).destLegal = false ∧ decode 0x10031000 = .error .illegalCommand := by decide
/-- V-ENC-29: `FDRD.M` with `rs = 1`. -/
theorem test_refuse_source :
    (CmdFields.ofWord 0x13051000).sourceLegal = false ∧ decode 0x13051000 = .error .illegalCommand := by decide
/-- V-ENC-28: `FDRD` with `f = 4`. -/
theorem test_refuse_readout_selector :
    (CmdFields.ofWord 0x13050400).selectorLegal = false ∧ decode 0x13050400 = .error .illegalCommand := by decide
/-- V-ENC-31: `EDTEST` with `f = 1`. -/
theorem test_refuse_selector :
    (CmdFields.ofWord 0x21042107).selectorLegal = false ∧ decode 0x21042107 = .error .illegalCommand := by decide
/-- V-ENC-23: `CLZ.32` with `c = 1`. -/
theorem test_refuse_slot :
    (CmdFields.ofWord 0x02031001).slotLegal = false ∧ decode 0x02031001 = .error .illegalCommand := by decide
/-- V-ENC-18 passes every check. -/
theorem test_accept : (CmdFields.ofWord 0x23090207).wellFormed = true := by decide

/-! ### One step of each command -/

/-- The outcome is a next state that passes the check. -/
def isNext : Host.Outcome State Fault Refusal → (State → Bool) → Bool
  | .next t, p => p t
  | .fault _, _ => false
  | .refused _, _ => false

/-- The state after reset with values in some registers. -/
def holding (checked : Bool) (values : List (RegIdx × Word)) : State :=
  values.foldl (fun s p => s.writeReg p.1 p.2) (State.resetOn checked)

/-- One step that issues the word. -/
def issues (s : State) (cmd : Cmd) (p : State → Bool) : Bool := isNext (step (s.withNextCommand cmd)) p

/-- Fault entry has written these values, and `x3` is still 0. -/
def faulted (status fcmd : BitVec 32) (t : State) : Bool := t.status == status && t.fcmd == fcmd && t.readReg 3 == 0

/-- The slots of V-FD-4, V-FD-13, V-ED-3 and V-ED-6. -/
def fd7 : FdSlot := ⟨.w32, 7, 0x92492493, 34⟩
def fdBig : FdSlot := ⟨.w64, 1000000007, 0x89705F3112A28FE5, 93⟩
def ed7 : EdSlot := ⟨.w32, 7, 0xB6DB6DB7, 0x24924924⟩
def edBig : EdSlot := ⟨.w64, 999999937, 0x67F54EE85C884641, 0x44B82FE93⟩

/-- V-BS-30: `rd = rs`. -/
theorem test_popcnt32 : issues (holding false [(5, 0xF0)]) 0x01055000 (fun t => t.readReg 5 == 4) = true := by decide
/-- V-BS-27. -/
theorem test_popcnt32_range :
    issues (holding true [(1, 0x100000000)]) 0x01031000 (faulted 0x00000301 0x01031000) = true := by decide
/-- V-BS-12. -/
theorem test_popcnt64 : issues (holding false [(1, 0x0123456789ABCDEF)]) 0x01131000 (fun t => t.readReg 3 == 32) = true := by
  decide
/-- V-BS-26: the count of 0 is defined. -/
theorem test_popcnt64_zero :
    issues (holding true [(1, 0), (3, 9)]) 0x01131000 (fun t => t.readReg 3 == 0 && t.status == 0) = true := by decide
/-- V-BS-29. -/
theorem test_popcnt128 : issues (holding true [(1, BitVec.allOnes 128)]) 0x01231000 (fun t => t.readReg 3 == 128) = true := by
  decide
/-- V-BS-31: the stale upper bits of the destination are cleared. -/
theorem test_clz32 :
    issues (holding false [(3, 0x80000000000000000000000000000005), (1, 1)]) 0x02031000 (fun t => t.readReg 3 == 31) = true := by
  decide
/-- V-BS-23. -/
theorem test_clz32_zero : issues (holding true []) 0x02031000 (faulted 0x00000401 0x02031000) = true := by decide
/-- V-BS-12. -/
theorem test_clz64 : issues (holding false [(1, 0x0123456789ABCDEF)]) 0x02131000 (fun t => t.readReg 3 == 7) = true := by decide
/-- V-BS-28 on an unchecked build: a value is drawn and nothing faults. -/
theorem test_clz64_range_unchecked : issues (holding false [(1, 0x10000000000000000)]) 0x02131000
    (fun t => t.draws == 1 && t.status == 0 && t.fcmd == 0) = true := by decide
/-- V-BS-15. -/
theorem test_clz128_high : issues (holding false [(1, 0x10000000000000000)]) 0x02231000 (fun t => t.readReg 3 == 63) = true := by
  decide
/-- V-BS-11. -/
theorem test_clz128_low : issues (holding false [(1, 0x100000000)]) 0x02231000 (fun t => t.readReg 3 == 95) = true := by decide
/-- V-BS-4. -/
theorem test_ctz32 : issues (holding false [(1, 0x00010000)]) 0x03031000 (fun t => t.readReg 3 == 16) = true := by decide
/-- V-BS-13. -/
theorem test_ctz64 : issues (holding false [(1, 0x8000000000000000)]) 0x03131000 (fun t => t.readReg 3 == 63) = true := by decide
/-- V-BS-18. -/
theorem test_ctz128 :
    issues (holding false [(1, 0xDEADBEEF0000000000000000)]) 0x03231000 (fun t => t.readReg 3 == 64) = true := by decide
/-- V-BS-24. -/
theorem test_ctz128_zero : issues (holding true []) 0x03231000 (faulted 0x00000401 0x03231000) = true := by decide
/-- V-BS-9. -/
theorem test_ilog2_32 : issues (holding false [(1, 0x3B9ACA06)]) 0x04031000 (fun t => t.readReg 3 == 29) = true := by decide
/-- V-BS-12. -/
theorem test_ilog2_64 : issues (holding false [(1, 0x0123456789ABCDEF)]) 0x04131000 (fun t => t.readReg 3 == 56) = true := by
  decide
/-- V-BS-18. -/
theorem test_ilog2_128 :
    issues (holding false [(1, 0xDEADBEEF0000000000000000)]) 0x04231000 (fun t => t.readReg 3 == 95) = true := by decide

/-- V-FD-8. -/
theorem test_fdnew32 : issues (holding false [(1, 1000000007)]) 0x10001000
    (fun t => t.readFd 0 == some ⟨.w32, 1000000007, 0x89705F32, 61⟩) = true := by decide
/-- V-FD-38. -/
theorem test_fdnew32_zero : issues (holding true []) 0x10001000
    (fun t => t.readFd 0 == none && faulted 0x00000501 0x10001000 t) = true := by decide
/-- V-FD-16. -/
theorem test_fdnew64 : issues (holding false [(1, 0xFFFFFFFFFFFFFFFF)]) 0x10101000
    (fun t => t.readFd 0 == some ⟨.w64, 0xFFFFFFFFFFFFFFFF, 0x8000000000000001, 127⟩) = true := by decide
/-- V-FD-14: the special case `m = 1`. -/
theorem test_fdnew64_one : issues (holding true [(1, 1)]) 0x10101000
    (fun t => t.readFd 0 == some ⟨.w64, 1, 1, 0⟩) = true := by decide
/-- V-FD-9: one more than true division gives, and no fault. -/
theorem test_fddiv : issues ((holding true [(2, 0xCCCCCCD1)]).writeFd 0 fd7) 0x11032000
    (fun t => t.readReg 3 == 490853406 && t.status == 0) = true := by decide
/-- V-FD-41. -/
theorem test_fddiv_range : issues ((holding true [(1, 0x100000000)]).writeFd 1 fd7) 0x11031001
    (faulted 0x00000301 0x11031001) = true := by decide
/-- V-FD-10. -/
theorem test_fdmod : issues ((holding false [(2, 0xCCCCCCD1)]).writeFd 0 fd7) 0x12042000
    (fun t => t.readReg 4 == 0xFFFFFFFF) = true := by decide
/-- V-FD-43: an empty slot comes before the operand's range. -/
theorem test_fdmod_empty : issues (holding true [(2, 0x10000000000000000000000000)]) 0x12012003
    (faulted 0x00000201 0x12012003) = true := by decide
/-- V-FD-13. -/
theorem test_fdrdM : issues ((holding false []).writeFd 0 fdBig) 0x13050000 (fun t => t.readReg 5 == 1000000007) = true := by
  decide
/-- P2. -/
theorem test_fdrdMul :
    issues ((holding false []).writeFd 0 fdBig) 0x13050100 (fun t => t.readReg 5 == 0x89705F3112A28FE5) = true := by decide
/-- P2. -/
theorem test_fdrdShamt : issues ((holding false []).writeFd 0 fdBig) 0x13060200 (fun t => t.readReg 6 == 93) = true := by decide
/-- V-FD-44. -/
theorem test_fdrdShamt_empty : issues (holding false []) 0x13050209 (faulted 0x00000201 0x13050209) = true := by decide
/-- V-FD-45: the number of bits. -/
theorem test_fdrdW : issues ((holding false []).writeFd 0 fdBig) 0x13050300 (fun t => t.readReg 5 == 64) = true := by decide

/-- V-ED-3. -/
theorem test_ednew32 : issues (holding false [(1, 7)]) 0x20001000 (fun t => t.readEd 0 == some ed7) = true := by decide
/-- V-ED-27. -/
theorem test_ednew32_even : issues (holding true [(1, 10)]) 0x20001000
    (fun t => t.readEd 0 == none && faulted 0x00000601 0x20001000 t) = true := by decide
/-- V-ED-7: the sixth step is needed. -/
theorem test_ednew64 : issues (holding false [(1, 7)]) 0x20101000
    (fun t => t.readEd 0 == some ⟨.w64, 7, 0x6DB6DB6DB6DB6DB7, 0x2492492492492492⟩) = true := by decide
/-- V-ED-28: zero comes before even. -/
theorem test_ednew64_zero : issues (holding true []) 0x20101000 (faulted 0x00000501 0x20101000) = true := by decide
/-- V-ED-14: the largest multiple lands on the threshold. -/
theorem test_edtest : issues ((holding false [(2, 0xFFFFFFFC)]).writeEd 0 ed7) 0x21032000
    (fun t => t.readReg 3 == 1) = true := by decide
/-- V-ED-12. -/
theorem test_edtest_not : issues ((holding false [(2, 16999998930), (3, 5)]).writeEd 7 edBig) 0x21032007
    (fun t => t.readReg 3 == 0 && t.status == 0) = true := by decide
/-- V-ED-12: not the quotient. -/
theorem test_edquo : issues ((holding false [(2, 16999998930)]).writeEd 7 edBig) 0x22062007
    (fun t => t.readReg 6 == 0x67F54EE85C884652) = true := by decide
/-- V-ED-32. -/
theorem test_edquo_empty : issues (holding false []) 0x22032004 (faulted 0x00000201 0x22032004) = true := by decide
/-- P3. -/
theorem test_edrdN : issues ((holding false []).writeEd 7 edBig) 0x230A0007 (fun t => t.readReg 10 == 999999937) = true := by
  decide
/-- V-ED-33: the slot files are separate. -/
theorem test_edrdN_empty : issues ((holding false []).writeFd 4 fd7) 0x23030004 (faulted 0x00000201 0x23030004) = true := by
  decide
/-- P3. -/
theorem test_edrdInv :
    issues ((holding false []).writeEd 7 edBig) 0x23080107 (fun t => t.readReg 8 == 0x67F54EE85C884641) = true := by decide
/-- P3. -/
theorem test_edrdThr :
    issues ((holding false []).writeEd 7 edBig) 0x23090207 (fun t => t.readReg 9 == 18446745235) = true := by decide
/-- P4. -/
theorem test_edrdW : issues ((holding false []).writeEd 0 ed7) 0x23040300 (fun t => t.readReg 4 == 32) = true := by decide

/-- A state that has faulted, as V-FLT-2 leaves it but for `x2`. -/
def halt : State := raise .zeroInput 0x02030000 (holding true [(1, 0x10)])

/-- V-FLT-3: a word issued to a halted block is not decoded. -/
theorem test_halted_issue :
    issues halt 0x00000000 (fun t => t.status == 0x00000401 && t.fcmd == 0x02030000 && t.readReg 1 == 0x10) = true := by decide
/-- V-FLT-2: a register write to a halted block is discarded. -/
theorem test_halted_write :
    isNext (step { halt with pending := [.hostWriteReg 5 99] }) (fun t => t.readReg 5 == 0 && t.pending == []) = true := by decide
/-- V-FLT-4: reset ends the halt and clears the registers. -/
theorem test_reset_halted :
    isNext (step { halt with pending := [.reset] }) (fun t => t.status == 0 && t.fcmd == 0 && t.readReg 1 == 0) = true := by
  decide
/-- V-FLT-5: reset empties a slot. -/
theorem test_reset_slot :
    isNext (step { (holding true []).writeFd 0 fd7 with pending := [.reset] }) (fun t => t.readFd 0 == none) = true := by decide
/-- V-FLT-1: `ID` names the build. -/
theorem test_read_id : isNext (step { holding true [] with pending := [.hostReadCtl 0] })
    (fun t => t.returned == [.ctl 1]) = true := by decide
/-- V-FLT-1: an unassigned index reads 0. -/
theorem test_read_unassigned : isNext (step { halt with pending := [.hostReadCtl 3] })
    (fun t => t.returned == [.ctl 0]) = true := by decide
/-- V-ENC-20. -/
theorem test_illegal_word : issues (holding false []) 0xFFFFFFFF (faulted 0x00000101 0xFFFFFFFF) = true := by decide

/-! ### Witnesses: the hypotheses of the obligations can be met -/

/-- A running block with a full slot of each kind and width, a transaction's result not yet returned, and operands for them. -/
def busy (checked : Bool) : State :=
  ((((holding checked [(1, 7), (2, 100), (4, 10), (6, 0x100000000), (7, 0x10000000000000000), (8, 0xFFFFFFFF),
    (9, 0xFFFFFFFFFFFFFFFF), (10, 1)]).writeFd 0 fd7).writeFd 1 fdBig).writeEd 0 ed7).writeEd 7 edBig

/-- `exec` answers a next state that passes the check. -/
def ends (i : Instr) (s : State) (p : State → Bool) : Bool := isNext (exec i s) p

/-- What a passed check says. -/
theorem isNext_spec {o : Host.Outcome State Fault Refusal} {p : State → Bool} (h : isNext o p = true) :
    ∃ t, o = .next t ∧ p t = true := by
  cases o with
  | next t => exact ⟨t, rfl, h⟩
  | fault r => cases r
  | refused r => cases h

theorem witness_EncodeOfDecode : ∃ cmd i, decode cmd = .ok i := ⟨0x13050200, .fdrdShamt 5 0, by decide⟩

theorem witness_DecodingTestsTheRows :
    (∃ r ∈ opcodeMap, ∃ cmd, r.matches cmd = true) ∧ (∃ s : State, s.halted = false) ∧
    ∃ cmd, ∀ r ∈ opcodeMap, r.matches cmd = false :=
  ⟨⟨opcodeMap[0]'(by decide), List.getElem_mem _, 0x010FF000, by decide⟩, ⟨busy true, by decide⟩, 0x05000000, by decide⟩

theorem witness_IllegalWordRaises :
    (busy true).halted = false ∧ (busy false).halted = false ∧ (CmdFields.ofWord 0x02331000).wellFormed = false := by decide

theorem witness_ToolLayoutIsLittleEndian : ∃ n b : Nat, b < n := ⟨4, 3, by decide⟩

theorem witness_StepRunsDecodedCommand :
    (∃ (s : State) (cmd : Cmd) (rest : List Transaction) (i : Instr), s.pending = .issue cmd :: rest ∧ s.halted = false ∧
      decode cmd = .ok i) ∧
    ∃ (s : State) (w : Nat) (i : Instr), s.halted = false ∧ decodeTableWord 32 w = some i :=
  ⟨⟨(busy true).withNextCommand 0x11032000, 0x11032000, [], .fddiv 3 2 0, by decide⟩,
    busy true, 0x23090207, .edrdThr 9 7, by decide⟩

theorem witness_StepTakesNextTransaction :
    (∃ s : State, s.pending = []) ∧ ∃ (s : State) (t : Transaction) (rest : List Transaction), s.pending = t :: rest :=
  ⟨⟨busy true, by decide⟩, { busy true with pending := [.reset, .issue 0] }, .reset, [.issue 0], rfl⟩

theorem witness_HostWriteRegister :
    ∃ s s' : State, s.pending = [.hostWriteReg 15 99] ∧ s.halted = false ∧ s'.pending = [.hostWriteReg 15 99] ∧
      s'.halted = true :=
  ⟨{ busy true with pending := [.hostWriteReg 15 99] }, { halt with pending := [.hostWriteReg 15 99] }, by decide⟩

/-- The indices 0, 1, 2, 3 and the largest meet the clauses of the control registers, one each. -/
theorem witness_HostReadsReturnAndChangeNothing :
    (∃ s : State, s.pending = [.hostReadReg 15]) ∧
    (∀ j : BitVec 32, ∃ s : State, s.pending = [.hostReadCtl j]) ∧
    2 < (3 : BitVec 32).toNat ∧ 2 < (0xFFFFFFFF : BitVec 32).toNat ∧ ¬ 2 < (2 : BitVec 32).toNat :=
  ⟨⟨{ halt with pending := [.hostReadReg 15] }, rfl⟩, fun j => ⟨{ halt with pending := [.hostReadCtl j] }, rfl⟩, by decide⟩

theorem witness_ResetReachesResetState :
    ∃ s s' : State, s.pending = [.reset] ∧ s.halted = false ∧ s'.pending = [.reset] ∧ s'.halted = true :=
  ⟨{ busy true with pending := [.reset] }, { halt with pending := [.reset] }, by decide⟩

theorem witness_HaltedBlockIsFrozen :
    halt.halted = true ∧ ∀ t : Transaction, ∃ s : State, s.halted = true ∧ s.pending = [t] :=
  ⟨by decide, fun t => ⟨{ halt with pending := [t] }, show halt.halted = true by decide, rfl⟩⟩

theorem witness_FirstFaultIsKept :
    ∃ (ts : List Transaction) (s t : State), s.halted = true ∧ .reset ∉ ts ∧ ts ≠ [] ∧ runList ts s = .next t :=
  ⟨[.issue 0x01041000, .hostWriteReg 5 99], halt, halt, by decide, by decide, by decide, rfl⟩

theorem witness_FaultIsPrecise :
    ∃ (i : Instr) (s t : State), s.halted = false ∧ exec i s = .next t ∧ t.halted = true := by
  obtain ⟨t, e, h⟩ := isNext_spec (p := (·.halted)) (show ends (.fddiv 3 6 0) (busy true) (·.halted) = true by decide)
  exact ⟨_, _, t, by decide, e, h⟩

/-- Each build, each clause. -/
theorem witness_BuildsAgreeWithoutViolation :
    (∃ (i : Instr) (s t : State), s.checked = false ∧ s.halted = false ∧ exec i s = .next t ∧ t.halted = true) ∧
    (∃ (i : Instr) (s t : State), s.checked = true ∧ exec i s = .next t ∧ t.halted = false) ∧
    ∃ (i : Instr) (s t : State), s.checked = false ∧ exec i s = .next t ∧ t.draws = s.draws := by
  obtain ⟨t, e, h⟩ := isNext_spec (show ends (.fddiv 3 2 9) (busy false) (·.halted) = true by decide)
  obtain ⟨t', e', h'⟩ := isNext_spec (show ends (.fddiv 3 2 0) (busy true) (fun t => !t.halted) = true by decide)
  obtain ⟨t'', e'', h''⟩ := isNext_spec (show ends (.fddiv 3 2 0) (busy false) (fun t => t.draws == 0) = true by decide)
  exact ⟨⟨_, _, t, by decide, by decide, e, h⟩, ⟨_, _, t', by decide, e', by simpa using h'⟩,
    _, _, t'', by decide, e'', (beq_iff_eq.mp h'').trans (by decide)⟩

theorem witness_EmptySlotRaises :
    ∃ s : State, s.readFd 255 = none ∧ s.readEd 255 = none ∧ s.readFd 0 ≠ none := ⟨busy true, by decide⟩

/-- The least operand out of range, at both widths, of both engines, on both builds. -/
theorem witness_QueryOutOfRange : ∀ b : Bool, (busy b).checked = b ∧
    ((busy b).readFd 0 = some fd7 ∧ (busy b).readEd 0 = some ed7 ∧ ((busy b).readReg 6).toNat = 2 ^ 32) ∧
    (busy b).readFd 1 = some fdBig ∧ (busy b).readEd 7 = some edBig ∧ ((busy b).readReg 7).toNat = 2 ^ 64 := by decide

/-- A state that is running and one that has halted are legal and step. -/
theorem witness_ControlRegistersStayLegal :
    (∃ s t : State, s.halted = false ∧ s.ControlLegal ∧ step s = .next t) ∧
    ∃ s t : State, s.halted = true ∧ s.ControlLegal ∧ step s = .next t :=
  ⟨⟨busy true, busy true, by decide, .inl (by decide), rfl⟩,
    halt, halt, by decide, .inr ⟨.zeroInput, by decide, show Cause.zeroInput ∈ raisable true (.clz32 3 0) by decide⟩, rfl⟩

theorem fd7_valid : fd7.Valid where
  divisor_pos := by decide
  divisor_lt  := by decide
  one         := by decide
  shift       := fun _ => ⟨2, by decide⟩
  ceiling     := by decide
  mul_pos     := by decide
  mul_lt      := by decide

/-- V-FD-13: its error is small, so that it is exact for every dividend. -/
theorem fdBig_valid : fdBig.Valid where
  divisor_pos := by decide
  divisor_lt  := by decide
  one         := by decide
  shift       := fun _ => ⟨29, by decide⟩
  ceiling     := by decide
  mul_pos     := by decide
  mul_lt      := by decide

theorem ed7_valid : ed7.Valid := by constructor <;> decide

theorem edBig_valid : edBig.Valid := by constructor <;> decide

/-- The state after reset with one slot of each kind full. -/
def built (checked : Bool) : State := ((State.resetOn checked).writeFd 0 fd7).writeEd 0 ed7

theorem built_fd {b : Bool} {c : SlotIdx} {d : FdSlot} (h : (built b).readFd c = some d) : d = fd7 := by
  have : (built b).readFd c = if c = 0 then some fd7 else none := by
    rcases c with ⟨_ | c, hc⟩
    · rfl
    · simp [built, State.readFd, State.writeFd, State.writeEd, State.resetOn]
  rw [this] at h
  split at h <;> simp_all

theorem built_ed {b : Bool} {c : SlotIdx} {d : EdSlot} (h : (built b).readEd c = some d) : d = ed7 := by
  have : (built b).readEd c = if c = 0 then some ed7 else none := by
    rcases c with ⟨_ | c, hc⟩
    · rfl
    · simp [built, State.readEd, State.writeFd, State.writeEd, State.resetOn]
  rw [this] at h
  split at h <;> simp_all

theorem witness_SlotFieldsStayInWidth :
    ∃ s t : State, s.SlotsFit ∧ step s = .next t ∧ s.readFd 0 = some fd7 ∧ s.readEd 0 = some ed7 :=
  ⟨built false, built false, ⟨fun _ _ h => built_fd h ▸ ⟨by decide, by decide⟩,
    fun _ _ h => built_ed h ▸ ⟨by decide, by decide, by decide⟩⟩, rfl, rfl, rfl⟩

theorem witness_CheckedSlotsStayValid :
    ∃ s t : State, s.checked = true ∧ s.SlotsValid ∧ step s = .next t ∧ s.readFd 0 = some fd7 ∧ s.readEd 0 = some ed7 :=
  ⟨built true, built true, rfl, ⟨fun _ _ h => built_fd h ▸ fd7_valid, fun _ _ h => built_ed h ▸ ed7_valid⟩, rfl, rfl, rfl⟩

/-- A command with a destination that completes and one that faults. -/
theorem witness_RegisterCommandFrame :
    (∃ (i : Instr) (s t : State) (rd : RegIdx), i.dest = some rd ∧ exec i s = .next t ∧ t.halted = false) ∧
    ∃ (i : Instr) (s t : State) (rd : RegIdx), i.dest = some rd ∧ exec i s = .next t ∧ t.halted = true := by
  obtain ⟨t, e, h⟩ := isNext_spec (show ends (.edtest 3 1 0) (busy true) (fun t => !t.halted) = true by decide)
  obtain ⟨t', e', h'⟩ := isNext_spec (show ends (.edtest 3 1 9) (busy true) (·.halted) = true by decide)
  exact ⟨⟨_, _, t, 3, rfl, e, by simpa using h⟩, _, _, t', 3, rfl, e', h'⟩

/-- A construction that completes and one that faults. -/
theorem witness_ConstructionFrame :
    (∃ (i : Instr) (s t : State), i.dest = none ∧ exec i s = .next t ∧ t.halted = false) ∧
    ∃ (i : Instr) (s t : State), i.dest = none ∧ exec i s = .next t ∧ t.halted = true := by
  obtain ⟨t, e, h⟩ := isNext_spec (show ends (.ednew32 1 9) (busy true) (fun t => !t.halted) = true by decide)
  obtain ⟨t', e', h'⟩ := isNext_spec (show ends (.ednew32 2 9) (busy true) (·.halted) = true by decide)
  exact ⟨⟨_, _, t, rfl, e, by simpa using h⟩, _, _, t', rfl, e', h'⟩

/-- A slot of each kind changes by a construction, and by `Reset`. -/
theorem witness_SlotsChangeOnlyByConstructionOrReset :
    (∃ s t : State, step s = .next t ∧ t.readFd 5 ≠ s.readFd 5) ∧ (∃ s t : State, step s = .next t ∧ t.readEd 5 ≠ s.readEd 5) ∧
    ∃ s t : State, step s = .next t ∧ t.readFd 0 ≠ s.readFd 0 ∧ t.readEd 0 ≠ s.readEd 0 := by
  obtain ⟨t, e, h⟩ := isNext_spec (show isNext (step ((busy true).withNextCommand 0x10001005))
    (fun t => decide (t.readFd 5 ≠ none)) = true by decide)
  obtain ⟨t', e', h'⟩ := isNext_spec (show isNext (step ((busy true).withNextCommand 0x20001005))
    (fun t => decide (t.readEd 5 ≠ none)) = true by decide)
  obtain ⟨u, e'', h''⟩ := isNext_spec (show isNext (step { busy true with pending := [.reset] })
    (fun t => decide (t.readFd 0 = none) && decide (t.readEd 0 = none)) = true by decide)
  simp only [decide_eq_true_eq, Bool.and_eq_true] at h h' h''
  exact ⟨⟨_, t, e, fun c => h (c.trans (by decide))⟩, ⟨_, t', e', fun c => h' (c.trans (by decide))⟩,
    _, u, e'', by rw [h''.1]; decide, by rw [h''.2]; decide⟩

/-- Two states that differ in a register, in a slot and in the draws counted. -/
theorem witness_CommandsReadOnlyTheirOperands :
    ∃ (s s' t t' : State), s ≠ s' ∧ s.checked = s'.checked ∧ s.halted = false ∧ s'.halted = false ∧
      s.readReg 2 = s'.readReg 2 ∧ s.readFd 0 = s'.readFd 0 ∧ exec (.fddiv 3 2 0) s = .next t ∧
      exec (.fddiv 3 2 0) s' = .next t' ∧ t.draws = s.draws ∧ t'.draws = s'.draws := by
  let s' : State := { ((busy true).writeReg 9 5).writeFd 1 fd7 with draws := 8 }
  obtain ⟨t, e, h⟩ := isNext_spec (show ends (.fddiv 3 2 0) (busy true) (fun t => t.draws == 0) = true by decide)
  obtain ⟨t', e', h'⟩ := isNext_spec (show ends (.fddiv 3 2 0) s' (fun t => t.draws == 8) = true by decide)
  exact ⟨busy true, s', t, t', fun c => absurd (congrArg State.draws c) (by decide), by decide, by decide, by decide,
    by decide, by decide, e, e', (beq_iff_eq.mp h).trans (by decide), (beq_iff_eq.mp h').trans rfl⟩

theorem witness_QueriesCommute :
    ∃ (A B : Instr) (s sA sB : State) (ra rb : RegIdx), A.dest = some ra ∧ B.dest = some rb ∧ ra ≠ rb ∧
      B.source ≠ some ra ∧ A.source ≠ some rb ∧ s.halted = false ∧ exec A s = .next sA ∧ exec B s = .next sB ∧
      sA.halted = false ∧ sB.halted = false ∧ sA.draws = s.draws ∧ sB.draws = s.draws := by
  obtain ⟨t, e, h⟩ := isNext_spec (show ends (.edtest 3 1 0) (busy true) (fun t => !t.halted && t.draws == 0) = true by decide)
  obtain ⟨u, e', h'⟩ := isNext_spec (show ends (.fdmod 5 2 0) (busy true) (fun t => !t.halted && t.draws == 0) = true by decide)
  simp only [Bool.not_eq_true', Bool.and_eq_true, beq_iff_eq] at h h'
  exact ⟨.edtest 3 1 0, .fdmod 5 2 0, busy true, t, u, 3, 5, by decide, by decide, by decide, by decide, by decide, by decide,
    e, e', h.1, h'.1, h.2, h'.2⟩

/-- The greatest operand in range, at 32 and at 64 bits. -/
theorem witness_PopcountCounts :
    ((busy true).readReg 8).toNat = 2 ^ 32 - 1 ∧ ((busy true).readReg 9).toNat = 2 ^ 64 - 1 := by decide

/-- The positions 31 and 63 are those of the greatest operands in range; 64 is that of the least beyond. -/
theorem witness_ClzCounts :
    (2 ^ 31 ≤ ((busy true).readReg 8).toNat ∧ ((busy true).readReg 8).toNat < 2 ^ (31 + 1)) ∧
    (2 ^ 63 ≤ ((busy true).readReg 9).toNat ∧ ((busy true).readReg 9).toNat < 2 ^ (63 + 1)) ∧
    (2 ^ 64 ≤ ((busy true).readReg 7).toNat ∧ ((busy true).readReg 7).toNat < 2 ^ (64 + 1)) := by decide

theorem witness_CtzCounts :
    (2 ^ 0 ∣ ((busy true).readReg 8).toNat ∧ ¬ 2 ^ (0 + 1) ∣ ((busy true).readReg 8).toNat ∧
      ((busy true).readReg 8).toNat < 2 ^ 32) ∧
    (2 ^ 32 ∣ ((busy true).readReg 6).toNat ∧ ¬ 2 ^ (32 + 1) ∣ ((busy true).readReg 6).toNat ∧
      ((busy true).readReg 6).toNat < 2 ^ 64) ∧
    (2 ^ 64 ∣ ((busy true).readReg 7).toNat ∧ ¬ 2 ^ (64 + 1) ∣ ((busy true).readReg 7).toNat) := by decide

/-- The hypotheses are those of `ClzCounts`; here the least operand, at position 0. -/
theorem witness_Ilog2IsFloorLog :
    2 ^ 0 ≤ ((busy true).readReg 10).toNat ∧ ((busy true).readReg 10).toNat < 2 ^ (0 + 1) ∧
      ((busy true).readReg 10).toNat < 2 ^ 32 := by decide

/-- The least operands out of range, and a zero operand, on both builds. -/
theorem witness_ScanViolations : ∀ b : Bool, (busy b).checked = b ∧
    2 ^ 32 ≤ ((busy b).readReg 6).toNat ∧ 2 ^ 64 ≤ ((busy b).readReg 7).toNat ∧ ((busy b).readReg 0).toNat = 0 := by decide

/-- A value with its high half 0, and one with its low half 0. -/
theorem witness_DoubleWidthByHalves :
    (let v := 2 ^ 64 - 1; v < 2 ^ 128 ∧ v ≠ 0 ∧ v / 2 ^ 64 = 0 ∧ v % 2 ^ 64 ≠ 0) ∧
    (let v := 2 ^ 64; v < 2 ^ 128 ∧ v ≠ 0 ∧ v / 2 ^ 64 ≠ 0 ∧ v % 2 ^ 64 = 0) := by decide

theorem witness_BitScanLaws :
    32 ∈ [32, 64, 128] ∧ 64 ∈ [32, 64, 128] ∧ 0 < 2 ^ 32 - 1 ∧ 2 ^ 32 - 1 < 2 ^ 32 ∧ 32 < 64 := by decide

/-- Divisors 1 and the greatest of each width. -/
theorem witness_FdnewStoresValidInstance :
    1 ≤ ((busy true).readReg 10).toNat ∧ ((busy true).readReg 10).toNat < 2 ^ 32 ∧
    1 ≤ ((busy true).readReg 8).toNat ∧ ((busy true).readReg 8).toNat < 2 ^ 32 ∧
    1 ≤ ((busy true).readReg 9).toNat ∧ ((busy true).readReg 9).toNat < 2 ^ 64 := by decide

/-- The least divisors out of range, and 0, on both builds. -/
theorem witness_FdnewViolations : ∀ b : Bool, (busy b).checked = b ∧
    2 ^ WordWidth.w32.bits ≤ ((busy b).readReg 6).toNat ∧ 2 ^ WordWidth.w64.bits ≤ ((busy b).readReg 7).toNat ∧
    ((busy b).readReg 0).toNat = 0 := by decide

/-- The greatest dividend in range, at both widths. -/
theorem witness_FdQueriesCompute :
    ((busy true).readFd 0 = some fd7 ∧ ((busy true).readReg 8).toNat = 2 ^ fd7.w.bits - 1) ∧
    (busy true).readFd 1 = some fdBig ∧ ((busy true).readReg 9).toNat = 2 ^ fdBig.w.bits - 1 := by decide

/-- The least divisor above 1, a power of two, and the greatest divisor. -/
theorem witness_FdConstantBounds :
    (1 < 2 ∧ 2 < 2 ^ 32 ∧ 1 ≤ 1 ∧ 2 ^ (1 - 1) < 2 ∧ 2 ≤ 2 ^ 1) ∧
    (let m := 2 ^ 64 - 1; 1 < m ∧ m < 2 ^ 64 ∧ 1 ≤ 64 ∧ 2 ^ (64 - 1) < m ∧ m ≤ 2 ^ 64) := by decide

/-- The greatest dividend of the range, `2^(W-1)`, for the divisor 7, whose error is not small. -/
theorem witness_FddivExactUpToHalfRange :
    ∃ s : State, s.readFd 0 = some fd7 ∧ fd7.Valid ∧ (s.readReg 2).toNat = 2 ^ (fd7.w.bits - 1) :=
  ⟨(busy true).writeReg 2 0x80000000, by decide, fd7_valid, by decide⟩

/-- The divisor of V-FD-13 and the greatest dividend. -/
theorem witness_FddivExactForSmallError :
    (busy true).readFd 1 = some fdBig ∧ fdBig.Valid ∧
    fdBig.mul.toNat * fdBig.m.toNat - 2 ^ fdBig.shamt.toNat ≤ 2 ^ (fdBig.shamt.toNat - fdBig.w.bits) ∧
    ((busy true).readReg 9).toNat < 2 ^ fdBig.w.bits := ⟨by decide, fdBig_valid, by decide, by decide⟩

/-- V-FD-9 and V-FD-18: the quotient one too large, and exact one dividend below. -/
theorem witness_QuotientIsExactOrOneTooLarge :
    ∃ s s' : State, s.readFd 0 = some fd7 ∧ s'.readFd 0 = some fd7 ∧ fd7.Valid ∧
      (s.readReg 2).toNat < 2 ^ fd7.w.bits ∧ (s'.readReg 2).toNat < 2 ^ fd7.w.bits ∧
      (let a := (s.readReg 2).toNat;
        a / 7 + (a / 7 * 5 + a % 7 * fd7.mul.toNat) / 2 ^ 34 = a / 7 + 1) ∧
      (let a := (s'.readReg 2).toNat;
        a / 7 + (a / 7 * 5 + a % 7 * fd7.mul.toNat) / 2 ^ 34 = a / 7) :=
  ⟨(busy true).writeReg 2 0xCCCCCCD1, (busy true).writeReg 2 0xCCCCCCD0, by decide, by decide, fd7_valid, by decide, by decide,
    by decide, by decide⟩

theorem witness_SmallestInexactDividends :
    (WordWidth.w32, 7, 0xCCCCCCD1, 490853406) ∈ [(WordWidth.w32, 7, 0xCCCCCCD1, 490853406), (.w32, 1000000007, 3000000020, 3),
      (.w64, 7, 0xAAAAAAAAAAAAAAAD, 0x1861861861861862)] ∧ 0xCCCCCCD0 < 0xCCCCCCD1 := by decide

/-- The instance of 1 at each width, and a dividend for it. -/
theorem witness_IdentityDivisor :
    ((busy true).readReg 10).toNat = 1 ∧
    ∀ w : WordWidth, ∃ u : State, u.readFd 2 = some ⟨w, 1, 1, 0⟩ ∧ (u.readReg 8).toNat < 2 ^ w.bits :=
  ⟨by decide, fun w => ⟨(busy true).writeFd 2 ⟨w, 1, 1, 0⟩, by cases w <;> decide, by cases w <;> decide⟩⟩

theorem fdTwo_valid : (⟨.w32, 2, 0x80000000, 32⟩ : FdSlot).Valid where
  divisor_pos := by decide
  divisor_lt  := by decide
  one         := by decide
  shift       := fun _ => ⟨0, by decide⟩
  ceiling     := by decide
  mul_pos     := by decide
  mul_lt      := by decide

theorem fdHalf_valid : (⟨.w64, 0x8000000000000000, 0x8000000000000000, 126⟩ : FdSlot).Valid where
  divisor_pos := by decide
  divisor_lt  := by decide
  one         := by decide
  shift       := fun _ => ⟨62, by decide⟩
  ceiling     := by decide
  mul_pos     := by decide
  mul_lt      := by decide

/-- `j = 1` and `j = W - 1` (V-FD-2, V-FD-35). -/
theorem witness_PowerOfTwoDivisors :
    ∃ (s : State) (d e : FdSlot), s.readFd 2 = some d ∧ d.Valid ∧ d.m.toNat = 2 ^ 1 ∧ 1 ≤ d.w.bits - 1 ∧
      (s.readReg 8).toNat < 2 ^ d.w.bits ∧
      s.readFd 3 = some e ∧ e.Valid ∧ e.m.toNat = 2 ^ 63 ∧ 63 ≤ e.w.bits - 1 ∧ (s.readReg 9).toNat < 2 ^ e.w.bits :=
  ⟨((busy true).writeFd 2 ⟨.w32, 2, 0x80000000, 32⟩).writeFd 3 ⟨.w64, 0x8000000000000000, 0x8000000000000000, 126⟩, _, _,
    by decide, fdTwo_valid, by decide, by decide, by decide, by decide, fdHalf_valid, by decide, by decide, by decide⟩

theorem witness_FdReadOuts :
    (busy true).readFd 0 = some fd7 ∧ (busy true).readFd 1 = some fdBig ∧ (busy true).readFd 255 = none := by decide

/-- The least odd divisor, and the greatest of each width. -/
theorem witness_EdnewStoresValidInstance :
    ((busy true).readReg 10).toNat % 2 = 1 ∧ ((busy true).readReg 10).toNat < 2 ^ 32 ∧
    ((busy true).readReg 8).toNat % 2 = 1 ∧ ((busy true).readReg 8).toNat < 2 ^ 32 ∧
    ((busy true).readReg 9).toNat % 2 = 1 ∧ ((busy true).readReg 9).toNat < 2 ^ 64 := by decide

/-- The least divisors out of range, 0, and an even one in range, on both builds. -/
theorem witness_EdnewViolations : ∀ b : Bool, (busy b).checked = b ∧
    2 ^ WordWidth.w32.bits ≤ ((busy b).readReg 6).toNat ∧ 2 ^ WordWidth.w64.bits ≤ ((busy b).readReg 7).toNat ∧
    ((busy b).readReg 0).toNat = 0 ∧
    ((busy b).readReg 4).toNat < 2 ^ WordWidth.w32.bits ∧ ((busy b).readReg 4).toNat ≠ 0 ∧
    ((busy b).readReg 4).toNat % 2 = 0 := by decide

/-- The greatest operand in range, at both widths. -/
theorem witness_EdQueriesCompute :
    ((busy true).readEd 0 = some ed7 ∧ ((busy true).readReg 8).toNat = 2 ^ ed7.w.bits - 1) ∧
    (busy true).readEd 7 = some edBig ∧ ((busy true).readReg 9).toNat = 2 ^ edBig.w.bits - 1 := by decide

/-- V-ED-3: `y_1` is right modulo `2^2`. -/
theorem witness_RefinementDoublesCorrectBits :
    (2 ^ 2 : Int) ∣ 7 * (-5) - 1 ∧ 32 ∈ [32, 64] ∧ 1 ≤ 2 ∧ 7 * 0xFFFFFFFB % 2 ^ 2 = 1 ∧ 7 % 2 = 1 := by decide

/-- V-ED-3. -/
theorem witness_InverseIsTheInverse :
    7 % 2 = 1 ∧ 32 ∈ [32, 64] ∧ 0xB6DB6DB7 < 2 ^ 32 ∧ 7 * 0xB6DB6DB7 % 2 ^ 32 = 1 := by decide

/-- A multiple and a non-multiple. -/
theorem witness_EdtestDecidesDivisibility :
    (busy true).readEd 0 = some ed7 ∧ ed7.Valid ∧
    ((busy true).readReg 1).toNat < 2 ^ ed7.w.bits ∧ ed7.n.toNat ∣ ((busy true).readReg 1).toNat ∧
    ((busy true).readReg 8).toNat < 2 ^ ed7.w.bits ∧ ¬ ed7.n.toNat ∣ ((busy true).readReg 8).toNat :=
  ⟨by decide, ed7_valid, by decide, by decide, by decide, by decide⟩

/-- The same at the other width, with operand 0 and the greatest operand. -/
theorem witness_EdquoGivesQuotientOfMultiples :
    (busy true).readEd 7 = some edBig ∧ edBig.Valid ∧
    ((busy true).readReg 0).toNat < 2 ^ edBig.w.bits ∧ edBig.n.toNat ∣ ((busy true).readReg 0).toNat ∧
    ((busy true).readReg 9).toNat < 2 ^ edBig.w.bits ∧ ¬ edBig.n.toNat ∣ ((busy true).readReg 9).toNat :=
  ⟨by decide, edBig_valid, by decide, by decide, by decide, by decide⟩

theorem edOne_valid : (⟨.w32, 1, 1, 0xFFFFFFFF⟩ : EdSlot).Valid := by constructor <;> decide

theorem witness_DivisorOne :
    64 ∈ [32, 64] ∧ ∃ (s : State) (d : EdSlot), s.readEd 2 = some d ∧ d.Valid ∧ d.n.toNat = 1 ∧ (s.readReg 8).toNat < 2 ^ d.w.bits :=
  ⟨by decide, (busy true).writeEd 2 ⟨.w32, 1, 1, 0xFFFFFFFF⟩, _, by decide, edOne_valid, by decide, by decide⟩

theorem witness_EdReadOuts :
    (busy true).readEd 0 = some ed7 ∧ (busy true).readEd 7 = some edBig ∧ (busy true).readEd 255 = none := by decide

/-- The greatest operands at 32 bits. -/
theorem witness_WordArithmeticAgrees : 32 ∈ [32, 64] ∧ 0xFFFFFFFF < 2 ^ 32 := by decide

end Sys2Proof.Machine
end

section
/-! SUPPORT. The scope of the model (spec/00_scope.md): every step answers a next state and keeps the build (R10), a fault
writes `STATUS` and `FCMD` alone (R18), and arithmetic in naturals and integers is that of words (R13). -/

namespace Sys2Proof.Machine

/-! ### Effects of commands -/

section
variable {i : Instr} {s t : State}

/-- R10: whatever a command does, the build stays. -/
theorem Effect.checked_eq (h : Effect i s t) : t.checked = s.checked := by
  cases h with
  | fault | result | newFd | newEd => simp
  | drawn => simp [drawReg_eq]
  | drawnFd => simp [drawFd_eq]
  | drawnEd => simp [drawEd_eq]

/-- R196: fault entry is the only effect that writes `STATUS`, and its cause is one of the command's row of R192. -/
theorem Effect.fault_or_status_eq (h : Effect i s t) :
    (∃ cause ∈ raisable s.checked i, t = raise cause (encode i) s) ∨ t.status = s.status := by
  cases h with
  | fault cause hr => exact .inl ⟨cause, hr, rfl⟩
  | result | newFd | newEd => exact .inr (by simp)
  | drawn => exact .inr (by simp [drawReg_eq])
  | drawnFd => exact .inr (by simp [drawFd_eq])
  | drawnEd => exact .inr (by simp [drawEd_eq])

/-- R38, R196: the effect that halts a running block is fault entry. -/
theorem Effect.fault_of_halts (h : Effect i s t) (hs : s.halted = false) (ht : t.halted = true) :
    ∃ cause ∈ raisable s.checked i, t = raise cause (encode i) s := by
  rcases h.fault_or_status_eq with hf | hstatus
  · exact hf
  · rw [State.halted, hstatus, ← State.halted, hs] at ht
    cases ht

end

/-! ### Transactions -/

theorem hostWriteReg_checked (j : RegIdx) (v : Word) (s : State) : (hostWriteReg j v s).checked = s.checked := by
  unfold hostWriteReg
  split <;> rfl

/-- R10, R228: a transaction completes in a next state of the same build. -/
theorem transact_next (t : Transaction) (s : State) : ∃ s', transact t s = .next s' ∧ s'.checked = s.checked := by
  rcases transact_cases t s with ⟨j, v, -, e⟩ | ⟨_, -, e⟩ | ⟨_, -, e⟩ | ⟨_, -, -, e⟩ | ⟨_, -, -, -, e⟩ |
    ⟨_, _, _, -, -, -, -, he, e⟩ | ⟨-, e⟩
  · exact ⟨_, e, hostWriteReg_checked j v s⟩
  · exact ⟨_, e, rfl⟩
  · exact ⟨_, e, rfl⟩
  · exact ⟨_, e, rfl⟩
  · exact ⟨_, e, raise_checked ..⟩
  · exact ⟨_, e, he.checked_eq⟩
  · exact ⟨_, e, resetBlock_checked s⟩

/-- Settles O19: an idle step changes nothing, and every transaction completes in a next state of the same build. -/
theorem stepAlwaysAnswersNext : Obligations.StepAlwaysAnswersNext := by
  intro s
  cases h : s.pending with
  | nil => exact ⟨s, step_idle h, rfl⟩
  | cons t rest =>
    rw [step_transact h]
    exact transact_next t { s with pending := rest }

/-- Settles O20: of the effects a command can have, only fault entry halts a running block. -/
theorem faultIsPrecise : Obligations.FaultIsPrecise := by
  intro i s t hs he ht
  obtain ⟨cause, hr, rfl⟩ := (exec_cases he).fault_of_halts hs ht
  exact ⟨cause, hr, rfl, statusFault_statusOf cause, statusCause_statusOf cause⟩

/-! ### Arithmetic in naturals and integers, and in words (R13) -/

/-- An integer reduced `mod 2^W` is the value of the `W`-bit word it wraps to. -/
theorem toNat_emod_two_pow (W : Nat) (z : Int) : (z % 2 ^ W).toNat = (BitVec.ofInt W z).toNat := by
  rw [BitVec.toNat_ofInt, Nat.cast_pow, Nat.cast_ofNat]

/-- Wrapping an integer to a word keeps differences. -/
theorem ofInt_sub (W : Nat) (y z : Int) : BitVec.ofInt W (y - z) = BitVec.ofInt W y - BitVec.ofInt W z := by
  rw [Int.sub_eq_add_neg, BitVec.ofInt_add, BitVec.ofInt_neg, BitVec.sub_eq_add_neg]

/-- R138: the product of two `W`-bit values fits the double-width accumulator. -/
theorem mul_lt_two_pow_double {W a b : Nat} (ha : a < 2 ^ W) (hb : b < 2 ^ W) : a * b < 2 ^ (2 * W) := by
  rw [two_mul, pow_add]
  exact Nat.mul_lt_mul'' ha hb

/-- R138: the shift of the full product is that of a `2W`-bit accumulator. -/
theorem fdDiv_eq_accumulator {W a mul : Nat} (ha : a < 2 ^ W) (hmul : mul < 2 ^ W) (shamt : Nat) :
    fdDiv W mul shamt a = ((BitVec.ofNat (2 * W) a * BitVec.ofNat (2 * W) mul) >>> shamt).toNat % 2 ^ W := by
  have hfits := mul_lt_two_pow_double ha hmul
  rw [← BitVec.ofNat_mul, BitVec.toNat_ushiftRight, BitVec.toNat_ofNat, Nat.mod_eq_of_lt hfits, fdDiv]

/-- R141: the difference is that of `W`-bit words. -/
theorem fdMod_eq_word (W a m mul shamt : Nat) : fdMod W m mul shamt a =
    (BitVec.ofNat W a - BitVec.ofNat W (fdDiv W mul shamt a) * BitVec.ofNat W m).toNat := by
  rw [fdMod, toNat_emod_two_pow, ofInt_sub, BitVec.ofInt_mul]
  simp only [BitVec.ofInt_natCast]

/-- R161: the refinement step is that of `W`-bit words, the parenthesis wrapping too. -/
theorem refine_eq_word (W n y : Nat) : refine W n y =
    (BitVec.ofNat W y * (BitVec.ofNat W 2 - BitVec.ofNat W y * BitVec.ofNat W n)).toNat := by
  rw [refine, toNat_emod_two_pow, BitVec.ofInt_mul, ofInt_sub, BitVec.ofInt_mul]
  simp only [BitVec.ofInt_natCast, BitVec.ofInt_ofNat]

/-- R171: the low `W` bits of the product are the product of `W`-bit words. -/
theorem edQuo_eq_word (W inv k : Nat) : edQuo W inv k = (BitVec.ofNat W k * BitVec.ofNat W inv).toNat := by
  rw [← BitVec.ofNat_mul, BitVec.toNat_ofNat, edQuo]

/-- Settles O60: each function agrees with its words at every width, so at 32 and 64. -/
theorem wordArithmeticAgrees : Obligations.WordArithmeticAgrees := fun W _ =>
  ⟨fun _ _ shamt ha hmul => ⟨mul_lt_two_pow_double ha hmul, fdDiv_eq_accumulator ha hmul shamt⟩,
    fdMod_eq_word W, refine_eq_word W, edQuo_eq_word W⟩

end Sys2Proof.Machine
end

section
/-! SUPPORT. A legal word is the word of the command it decodes to, row by row of the opcode map (spec/30_encoding.md R71,
R77 to R79). -/

namespace Sys2Proof

/-- A command whose word the row's test accepts has that word: no bit the test leaves free is lost. -/
def Row.KeepsWord (r : Row) : Prop :=
  ∀ k : CmdFields, k.and (.ofWord r.mask) = .ofWord r.pattern → encode (r.instr k) = k.word

@[simp] theorem and_fifteen (b : BitVec 4) : b &&& 15#4 = b := BitVec.and_allOnes
@[simp] theorem and_twoHundredFiftyFive (b : BitVec 8) : b &&& 255#8 = b := BitVec.and_allOnes

section
variable {k : CmdFields} {op : BitVec 8} {w f : BitVec 4}

theorem formatS_of_masked (h : k.and (.ofWord 0xFFF00FFF) = ⟨op, w, 0, 0, 0, 0⟩) :
    formatS op w k.dest k.source = k.word := by
  rw [show CmdFields.ofWord 0xFFF00FFF = ⟨0xFF, 0xF, 0, 0, 0xF, 0xFF⟩ by decide] at h
  cases k
  simp_all [formatS, CmdFields.and, CmdFields.dest, CmdFields.source]

theorem formatN_of_masked (h : k.and (.ofWord 0xFFFF0F00) = ⟨op, w, 0, 0, 0, 0⟩) :
    formatN op w k.source k.slot = k.word := by
  rw [show CmdFields.ofWord 0xFFFF0F00 = ⟨0xFF, 0xF, 0xF, 0, 0xF, 0⟩ by decide] at h
  cases k
  simp_all [formatN, CmdFields.and, CmdFields.slot, CmdFields.source]

theorem formatQ_of_masked (h : k.and (.ofWord 0xFFF00F00) = ⟨op, 0, 0, 0, 0, 0⟩) :
    formatQ op k.dest k.source k.slot = k.word := by
  rw [show CmdFields.ofWord 0xFFF00F00 = ⟨0xFF, 0xF, 0, 0, 0xF, 0⟩ by decide] at h
  cases k
  simp_all [formatQ, CmdFields.and, CmdFields.dest, CmdFields.source, CmdFields.slot]

theorem formatG_of_masked (h : k.and (.ofWord 0xFFF0FF00) = ⟨op, 0, 0, 0, f, 0⟩) :
    formatG op f k.dest k.slot = k.word := by
  rw [show CmdFields.ofWord 0xFFF0FF00 = ⟨0xFF, 0xF, 0, 0xF, 0xF, 0⟩ by decide] at h
  cases k
  simp_all [formatG, CmdFields.and, CmdFields.dest, CmdFields.slot]

end

theorem scanRows_keepWord : ∀ r ∈ scanRows, r.KeepsWord := by
  simp only [scanRows, List.forall_mem_cons]
  refine ⟨?_, ?_, ?_, ?_, ?_, ?_, ?_, ?_, ?_, ?_, ?_, ?_, List.forall_mem_nil _⟩ <;>
    exact fun k h => formatS_of_masked (h.trans (by decide))

theorem fastDivRows_keepWord : ∀ r ∈ fastDivRows, r.KeepsWord := by
  simp only [fastDivRows, List.forall_mem_cons]
  refine ⟨?_, ?_, ?_, ?_, ?_, ?_, ?_, ?_, List.forall_mem_nil _⟩
  iterate 2 exact fun k h => formatN_of_masked (h.trans (by decide))
  iterate 2 exact fun k h => formatQ_of_masked (h.trans (by decide))
  iterate 4 exact fun k h => formatG_of_masked (h.trans (by decide))

theorem exactDivRows_keepWord : ∀ r ∈ exactDivRows, r.KeepsWord := by
  simp only [exactDivRows, List.forall_mem_cons]
  refine ⟨?_, ?_, ?_, ?_, ?_, ?_, ?_, ?_, List.forall_mem_nil _⟩
  iterate 2 exact fun k h => formatN_of_masked (h.trans (by decide))
  iterate 2 exact fun k h => formatQ_of_masked (h.trans (by decide))
  iterate 4 exact fun k h => formatG_of_masked (h.trans (by decide))

theorem opcodeMap_keepWord : ∀ r ∈ opcodeMap, r.KeepsWord := by
  simp only [opcodeMap, List.forall_mem_append]
  exact ⟨⟨scanRows_keepWord, fastDivRows_keepWord⟩, exactDivRows_keepWord⟩

/-- A word that decodes comes from a row of the opcode map whose test it passes. -/
theorem decode_ok {cmd : Cmd} {i : Instr} (h : decode cmd = .ok i) :
    ∃ r ∈ opcodeMap, r.matches cmd = true ∧ i = r.instr (.ofWord cmd) := by
  unfold decode at h
  split at h
  · next r hr =>
    cases h
    exact ⟨r, List.mem_of_find?_eq_some hr, by simpa using List.find?_some hr, rfl⟩
  · cases h

/-- R71, R77: a legal word is the word of the command it decodes to. -/
theorem encode_of_decode {cmd : Cmd} {i : Instr} (h : decode cmd = .ok i) : encode i = cmd := by
  obtain ⟨r, hr, hm, rfl⟩ := decode_ok h
  rw [opcodeMap_keepWord r hr _ ((Row.matches_iff r cmd).mp hm), CmdFields.word_ofWord]

end Sys2Proof
end

section
/-! SUPPORT. The constants a construction without violation stores satisfy their relations (spec/10_state.md R25, R37,
spec/41_fastdiv.md, spec/42_exactdiv.md). -/

namespace Sys2Proof.Machine

/-! ### Widths -/

theorem bits_le (w : WordWidth) : w.bits ≤ 64 := by cases w <;> decide

/-- A value below `2^W` loses nothing in a 64-bit field. -/
theorem toNat_ofNat_of_lt_bits {w : WordWidth} {v : Nat} (h : v < 2 ^ w.bits) : (BitVec.ofNat 64 v).toNat = v := by
  rw [BitVec.toNat_ofNat, Nat.mod_eq_of_lt (h.trans_le (Nat.pow_le_pow_right (by decide) (bits_le w)))]

/-! ### The constants of Fast Division (R25, R131, R132) -/

/-- R104: every `m - 1` has a highest set bit, below `W` when `m < 2^W`. -/
theorem exists_bracket {W m : Nat} (hm : 1 < m) (hW : m < 2 ^ W) :
    ∃ h, h < W ∧ 2 ^ h ≤ m - 1 ∧ m - 1 < 2 ^ (h + 1) :=
  ⟨Nat.log 2 (m - 1), Nat.log_lt_of_lt_pow (by omega) (by omega), Nat.pow_log_le_self 2 (by omega),
    Nat.lt_pow_succ_log_self (by decide) _⟩

/-- R131: above 1 the shift amount is `h + W`, and the multiplier the ceiling of `2^shamt / m`. -/
theorem fdConstruct_of_bracket {W m h : Nat} (hm : 1 < m) (hW : h < W) (hlo : 2 ^ h ≤ m - 1) (hhi : m - 1 < 2 ^ (h + 1)) :
    fdConstruct W m = ((2 ^ (h + W) + m - 1) / m, h + W) := by
  rw [fdConstruct, if_neg (by omega), ilog2_eq hlo hhi hW]

/-- R25: `(S + m - 1) / m` is the ceiling of `S / m`. -/
theorem ceil_bounds (S : Nat) {m : Nat} (hm : 0 < m) : S ≤ (S + m - 1) / m * m ∧ (S + m - 1) / m * m < S + m := by
  have hdiv := Nat.div_add_mod (S + m - 1) m
  have hmod := Nat.mod_lt (S + m - 1) hm
  rw [Nat.mul_comm] at hdiv
  omega

/-- R133: the multiplier fits the word, since `2^h` is below `m`. -/
theorem ceil_lt_two_pow {W m h : Nat} (hm : 1 < m) (hW : m < 2 ^ W) (hlo : 2 ^ h ≤ m - 1) :
    (2 ^ (h + W) + m - 1) / m < 2 ^ W := by
  rw [Nat.div_lt_iff_lt_mul (by omega)]
  calc 2 ^ (h + W) + m - 1 = 2 ^ h * 2 ^ W + (m - 1) := by rw [pow_add]; omega
    _ < (m - 1) * 2 ^ W + 2 ^ W := Nat.add_lt_add_of_le_of_lt (Nat.mul_le_mul_right _ hlo) (by omega)
    _ = 2 ^ W * m := by rw [← Nat.succ_mul, Nat.succ_eq_add_one, Nat.sub_add_cancel (by omega), Nat.mul_comm]

theorem fdInstance_one_valid (w : WordWidth) : (fdInstance w 1).Valid := by
  cases w <;> constructor
  case w32.shift | w64.shift => exact fun h => absurd h (by decide)
  all_goals decide

theorem fdInstance_m {w : WordWidth} {m : Nat} (hw : m < 2 ^ w.bits) : (fdInstance w m).m.toNat = m :=
  toNat_ofNat_of_lt_bits hw

section
variable {w : WordWidth} {m h : Nat} (hm : 1 < m) (hw : m < 2 ^ w.bits) (hW : h < w.bits) (hlo : 2 ^ h ≤ m - 1)
  (hhi : m - 1 < 2 ^ (h + 1))
include hm hw hW hlo hhi

theorem fdInstance_mul : (fdInstance w m).mul.toNat = (2 ^ (h + w.bits) + m - 1) / m := by
  rw [fdInstance, fdConstruct_of_bracket hm hW hlo hhi]
  exact toNat_ofNat_of_lt_bits (ceil_lt_two_pow hm hw hlo)

omit hw in
theorem fdInstance_shamt : (fdInstance w m).shamt.toNat = h + w.bits := by
  have hbits := bits_le w
  rw [fdInstance, fdConstruct_of_bracket hm hW hlo hhi]
  exact (BitVec.toNat_ofNat ..).trans (Nat.mod_eq_of_lt (by omega))

end

/-- R25, R131, R132: the constants of a divisor in range satisfy their relations. -/
theorem fdInstance_valid {w : WordWidth} {m : Nat} (h0 : 0 < m) (hw : m < 2 ^ w.bits) : (fdInstance w m).Valid := by
  obtain rfl | hm : m = 1 ∨ 1 < m := by omega
  · exact fdInstance_one_valid w
  obtain ⟨h, hW, hlo, hhi⟩ := exists_bracket hm hw
  have em := fdInstance_m hw
  have emul := fdInstance_mul hm hw hW hlo hhi
  have eshamt := fdInstance_shamt hm hW hlo hhi
  have hceil := ceil_bounds (2 ^ (h + w.bits)) h0
  constructor
  case divisor_pos => rwa [em]
  case divisor_lt => rwa [em]
  case one => rw [em]; omega
  case shift => rw [em]; exact fun _ => ⟨h, eshamt, hlo, hhi⟩
  case ceiling => rwa [em, emul, eshamt]
  case mul_pos =>
    have hS := Nat.two_pow_pos (h + w.bits)
    rw [emul]
    exact Nat.div_pos (by omega) h0
  case mul_lt =>
    rw [emul]
    exact ceil_lt_two_pow hm hw hlo

/-! ### The constants of the Exact Divisor (R37, R161, R163) -/

/-- R161: a refinement step is the integer step, up to a multiple of `2^W`. -/
theorem refine_dvd (W n y : Nat) : (2 ^ W : Int) ∣ (y : Int) * (2 - y * n) - refine W n y := by
  rw [refine, Int.toNat_of_nonneg (Int.emod_nonneg _ (by positivity))]
  exact Int.dvd_self_sub_emod

theorem refine_lt (W n y : Nat) : refine W n y < 2 ^ W := by
  rw [refine_eq_word]
  exact BitVec.isLt _

/-- R162: one step doubles the number of correct bits, up to `W`, since its error is the square of the last one. -/
theorem refine_doubles {W n y j : Nat} (h : (2 ^ j : Int) ∣ n * y - 1) :
    (2 ^ min (2 * j) W : Int) ∣ n * refine W n y - 1 := by
  have hsq : (2 ^ (2 * j) : Int) ∣ (n * y - 1) * (n * y - 1) := by
    rw [two_mul, pow_add]
    exact mul_dvd_mul h h
  have hstep := (pow_dvd_pow 2 (min_le_right (2 * j) W)).trans (refine_dvd W n y)
  have e : (n * refine W n y - 1 : Int) =
      -((n * y - 1) * (n * y - 1)) - n * (y * (2 - y * n) - refine W n y) := by ring
  rw [e]
  exact dvd_sub ((pow_dvd_pow 2 (min_le_left ..)).trans hsq).neg_right (hstep.mul_left _)

/-- R162: `y_j` is right modulo `2^(2^j)`, up to the word width. -/
theorem refinement_correct (W : Nat) {n : Nat} (hn : n % 2 = 1) (j : Nat) :
    (2 ^ min (2 ^ j) W : Int) ∣ n * refinement W n j - 1 := by
  induction j with
  | zero =>
    have h2 : (2 ^ 1 : Int) ∣ n * 1 - 1 := by omega
    exact (pow_dvd_pow 2 (min_le_left ..)).trans h2
  | succ j ih =>
    have hle : min (2 ^ (j + 1)) W ≤ min (2 * min (2 ^ j) W) W := by
      rw [pow_succ]
      omega
    exact (pow_dvd_pow 2 hle).trans (refine_doubles ih)

/-- R164: `y_j` is an inverse modulo every `2^k` up to `2^(2^j)` and `2^W`. -/
theorem refinement_mul_mod {W n j k : Nat} (hn : n % 2 = 1) (hk : 1 ≤ k) (hj : k ≤ 2 ^ j) (hW : k ≤ W) :
    n * refinement W n j % 2 ^ k = 1 := by
  have hdvd := (pow_dvd_pow 2 (le_min hj hW)).trans (refinement_correct W hn j)
  have hmod : 1 ≡ n * refinement W n j [MOD 2 ^ k] := Nat.modEq_iff_dvd.mpr (by exact_mod_cast hdvd)
  rw [← hmod, Nat.mod_eq_of_lt (Nat.one_lt_two_pow (by omega))]

theorem edInverse_lt (W n : Nat) : edInverse W n < 2 ^ W := refine_lt ..

/-- R164: six steps are enough at both widths. -/
theorem edInverse_mul (w : WordWidth) {n : Nat} (hn : n % 2 = 1) : n * edInverse w.bits n % 2 ^ w.bits = 1 := by
  have hpos : 1 ≤ w.bits := by cases w <;> decide
  exact refinement_mul_mod hn hpos (bits_le w) le_rfl

/-- R37: an inverse modulo a power of two is odd. -/
theorem odd_of_mul_mod {W a b : Nat} (h : a * b % 2 ^ (W + 1) = 1) : b % 2 = 1 := by
  have hab : a * b % 2 = 1 := by rw [← Nat.mod_mod_of_dvd _ (Dvd.intro_left _ (pow_succ 2 W).symm), h]
  exact Nat.odd_iff.mp (Nat.odd_mul.mp (Nat.odd_iff.mpr hab)).2

theorem edThreshold_lt (W n : Nat) : edThreshold W n < 2 ^ W :=
  (Nat.div_le_self ..).trans_lt (Nat.sub_lt (Nat.two_pow_pos W) one_pos)

section
variable {w : WordWidth} {n : Nat}

theorem edInstance_n (hw : n < 2 ^ w.bits) : (edInstance w n).n.toNat = n := toNat_ofNat_of_lt_bits hw
theorem edInstance_inv : (edInstance w n).inv.toNat = edInverse w.bits n := toNat_ofNat_of_lt_bits (edInverse_lt ..)
theorem edInstance_thr : (edInstance w n).thr.toNat = edThreshold w.bits n := toNat_ofNat_of_lt_bits (edThreshold_lt ..)

/-- R37, R161, R163: the constants of an odd divisor in range satisfy their relations. -/
theorem edInstance_valid (hn : n % 2 = 1) (hw : n < 2 ^ w.bits) : (edInstance w n).Valid := by
  have en := edInstance_n hw
  have hmul := edInverse_mul w hn
  constructor
  case divisor_odd => rwa [en]
  case divisor_lt => rwa [en]
  case inverse => rwa [en, edInstance_inv]
  case inv_odd =>
    rw [edInstance_inv]
    cases w <;> exact odd_of_mul_mod hmul
  case inv_lt => rw [edInstance_inv]; exact edInverse_lt ..
  case threshold => rw [en, edInstance_thr]; rfl
  case thr_pos => rw [edInstance_thr]; exact Nat.div_pos (by omega) (by omega)

end

/-! ### Valid constants fit the word -/

theorem FdSlot.Valid.fits {d : FdSlot} (h : d.Valid) : d.Fits := ⟨h.divisor_lt, h.mul_lt⟩

theorem EdSlot.Valid.fits {d : EdSlot} (h : d.Valid) : d.Fits := by
  refine ⟨h.divisor_lt, h.inv_lt, ?_⟩
  rw [h.threshold]
  exact edThreshold_lt ..

end Sys2Proof.Machine
end

section
/-! SUPPORT. The state of the block (spec/10_state.md): its invariants, what a command leaves unchanged, what it reads, and
what a construction stores. -/

namespace Sys2Proof.Machine

/-! ### What a command does to each part of the state (R22, R23, R29, R196) -/

/-- R166, R167: the fields a violated `FDNEW` draws fit the word. -/
theorem toNat_setWidth_unspec_lt (w : WordWidth) (draw : Nat) :
    ((Config.unspec w.bits draw).setWidth 64).toNat < 2 ^ w.bits := by
  rw [BitVec.toNat_setWidth_of_le (bits_le w)]
  exact BitVec.isLt _

section
variable {i : Instr} {s t : State}

/-- R36: no command touches the host's side. -/
theorem Effect.host_eq (h : Effect i s t) : t.pending = s.pending ∧ t.returned = s.returned := by
  cases h with
  | fault | result | newFd | newEd => exact ⟨rfl, rfl⟩
  | drawn => rw [drawReg_eq]; exact ⟨rfl, rfl⟩
  | drawnFd => rw [drawFd_eq]; exact ⟨rfl, rfl⟩
  | drawnEd => rw [drawEd_eq]; exact ⟨rfl, rfl⟩

/-- R22: a command writes no data register but its destination. -/
theorem Effect.readReg_eq (h : Effect i s t) {r : RegIdx} (hr : i.dest ≠ some r) : t.readReg r = s.readReg r := by
  have ne {rd : RegIdx} (hd : i.dest = some rd) : r ≠ rd := fun e => hr (e ▸ hd)
  cases h with
  | fault | newFd | newEd => rfl
  | drawnFd => rw [drawFd_eq]; rfl
  | drawnEd => rw [drawEd_eq]; rfl
  | result rd v hd => exact readReg_writeReg_ne s (ne hd) v
  | drawn rd bits hd => rw [drawReg_eq, readReg_writeReg_ne _ (ne hd)]; rfl

/-- R23, R29: a command leaves a Fast Division slot as it is, unless it is the construction that names it; then the slot is
full, its fields fit its width (R24), and on a checked build they are those of its divisor (R25). -/
theorem Effect.readFd_cases (h : Effect i s t) (c : SlotIdx) :
    t.readFd c = s.readFd c ∨ i.dest = none ∧ i.fdSlot = some c ∧
      ∃ d, t.readFd c = some d ∧ d.Fits ∧ (s.checked = true → d.Valid) := by
  cases h with
  | fault | result | newEd => exact .inl rfl
  | drawn => rw [drawReg_eq]; exact .inl rfl
  | drawnEd => rw [drawEd_eq]; exact .inl rfl
  | newFd w m c' hd hs hm hw =>
    obtain rfl | hne := eq_or_ne c c'
    · have hv := fdInstance_valid hm hw
      exact .inr ⟨hd, hs, _, readFd_writeFd_self .., hv.fits, fun _ => hv⟩
    · exact .inl (readFd_writeFd_ne s hne _)
  | drawnFd w c' hd hs hc =>
    rw [drawFd_eq]
    obtain rfl | hne := eq_or_ne c c'
    · exact .inr ⟨hd, hs, _, readFd_writeFd_self .., ⟨toNat_setWidth_unspec_lt .., toNat_setWidth_unspec_lt ..⟩,
        fun h => absurd (hc.symm.trans h) Bool.false_ne_true⟩
    · exact .inl (readFd_writeFd_ne _ hne _)

/-- R23, R29: the same of the Exact Divisor slots, with R26 and R37. -/
theorem Effect.readEd_cases (h : Effect i s t) (c : SlotIdx) :
    t.readEd c = s.readEd c ∨ i.dest = none ∧ i.edSlot = some c ∧
      ∃ d, t.readEd c = some d ∧ d.Fits ∧ (s.checked = true → d.Valid) := by
  cases h with
  | fault | result | newFd => exact .inl rfl
  | drawn => rw [drawReg_eq]; exact .inl rfl
  | drawnFd => rw [drawFd_eq]; exact .inl rfl
  | newEd w n c' hd hs hn hw =>
    obtain rfl | hne := eq_or_ne c c'
    · have hv := edInstance_valid hn hw
      exact .inr ⟨hd, hs, _, readEd_writeEd_self .., hv.fits, fun _ => hv⟩
    · exact .inl (readEd_writeEd_ne s hne _)
  | drawnEd w c' hd hs hc =>
    rw [drawEd_eq]
    obtain rfl | hne := eq_or_ne c c'
    · exact .inr ⟨hd, hs, _, readEd_writeEd_self ..,
        ⟨toNat_setWidth_unspec_lt .., toNat_setWidth_unspec_lt .., toNat_setWidth_unspec_lt ..⟩,
        fun h => absurd (hc.symm.trans h) Bool.false_ne_true⟩
    · exact .inl (readEd_writeEd_ne _ hne _)

/-- R28, R196: a command leaves `STATUS` and `FCMD` as they are, unless it performs fault entry, and then that is all it does. -/
theorem Effect.control_cases (h : Effect i s t) :
    (t.status = s.status ∧ t.fcmd = s.fcmd) ∨ ∃ cause ∈ raisable s.checked i, t = raise cause (encode i) s := by
  cases h with
  | fault cause hr => exact .inr ⟨cause, hr, rfl⟩
  | result | newFd | newEd => exact .inl ⟨rfl, rfl⟩
  | drawn => rw [drawReg_eq]; exact .inl ⟨rfl, rfl⟩
  | drawnFd => rw [drawFd_eq]; exact .inl ⟨rfl, rfl⟩
  | drawnEd => rw [drawEd_eq]; exact .inl ⟨rfl, rfl⟩

end

/-! ### What a step does to the slots and the control registers -/

/-- The effects of a step on the state of the block, the host's side and the data registers apart: most transactions have none. -/
inductive StepEffect (s : State) : State → Prop where
  /-- no transaction, a register access, or a word issued to a halted block -/
  | access {t : State} (hfd : t.fd = s.fd) (hed : t.ed = s.ed) (hstatus : t.status = s.status) (hfcmd : t.fcmd = s.fcmd)
      (hchecked : t.checked = s.checked) : StepEffect s t
  /-- an illegal word (R80) -/
  | illegal (cmd : Cmd) (rest : List Transaction) (hp : s.pending = .issue cmd :: rest)
      (hd : decode cmd = .error .illegalCommand) :
      StepEffect s (raise .illegalCommand cmd { s with pending := rest })
  /-- a command (R56) -/
  | command (cmd : Cmd) (rest : List Transaction) (i : Instr) {t : State} (hp : s.pending = .issue cmd :: rest)
      (hd : decode cmd = .ok i) (he : Effect i { s with pending := rest } t) : StepEffect s t
  /-- `Reset` (R57) -/
  | reset (rest : List Transaction) (hp : s.pending = .reset :: rest) :
      StepEffect s ({ s with pending := rest } : State).resetBlock

theorem hostWriteReg_stepEffect (j : RegIdx) (v : Word) (s : State) (rest : List Transaction) :
    StepEffect s (hostWriteReg j v { s with pending := rest }) := by
  unfold hostWriteReg
  split <;> exact .access rfl rfl rfl rfl rfl

theorem step_cases {s t : State} (h : step s = .next t) : StepEffect s t := by
  cases hp : s.pending with
  | nil =>
    rw [step_idle hp] at h
    cases h
    exact .access rfl rfl rfl rfl rfl
  | cons tr rest =>
    rw [step_transact hp] at h
    rcases transact_cases tr { s with pending := rest } with ⟨j, v, -, e⟩ | ⟨j, -, e⟩ | ⟨j, -, e⟩ | ⟨cmd, -, -, e⟩ |
      ⟨cmd, rfl, -, hd, e⟩ | ⟨cmd, i, s', rfl, -, hd, -, he, e⟩ | ⟨rfl, e⟩ <;> cases h.symm.trans e
    · exact hostWriteReg_stepEffect j v s rest
    · exact .access rfl rfl rfl rfl rfl
    · exact .access rfl rfl rfl rfl rfl
    · exact .access rfl rfl rfl rfl rfl
    · exact .illegal cmd rest hp hd
    · exact .command cmd rest i hp hd he
    · exact .reset rest hp

theorem resetBlock_readReg (s : State) (r : RegIdx) : s.resetBlock.readReg r = 0 := readReg_resetOn s.checked r
theorem resetBlock_readFd (s : State) (c : SlotIdx) : s.resetBlock.readFd c = none := readFd_resetOn s.checked c
theorem resetBlock_readEd (s : State) (c : SlotIdx) : s.resetBlock.readEd c = none := readEd_resetOn s.checked c

/-- R23, R29, R220: a step leaves a Fast Division slot as it is, or resets it, or is a construction that names it. -/
theorem StepEffect.readFd_cases {s t : State} (h : StepEffect s t) (c : SlotIdx) :
    t.readFd c = s.readFd c ∨ (∃ rest, s.pending = .reset :: rest ∧ t.readFd c = none) ∨
    ∃ cmd rest i d, s.pending = .issue cmd :: rest ∧ decode cmd = .ok i ∧ i.dest = none ∧ i.fdSlot = some c ∧
      t.readFd c = some d ∧ d.Fits ∧ (s.checked = true → d.Valid) := by
  cases h with
  | access hfd => exact .inl (by rw [State.readFd, hfd, State.readFd])
  | illegal => exact .inl rfl
  | reset rest hp => exact .inr (.inl ⟨rest, hp, resetBlock_readFd ..⟩)
  | command cmd rest i hp hd he =>
    rcases he.readFd_cases c with e | ⟨hn, hs, d, hfull⟩
    · exact .inl e
    · exact .inr (.inr ⟨cmd, rest, i, d, hp, hd, hn, hs, hfull⟩)

/-- R23, R29, R220: the same of the Exact Divisor slots. -/
theorem StepEffect.readEd_cases {s t : State} (h : StepEffect s t) (c : SlotIdx) :
    t.readEd c = s.readEd c ∨ (∃ rest, s.pending = .reset :: rest ∧ t.readEd c = none) ∨
    ∃ cmd rest i d, s.pending = .issue cmd :: rest ∧ decode cmd = .ok i ∧ i.dest = none ∧ i.edSlot = some c ∧
      t.readEd c = some d ∧ d.Fits ∧ (s.checked = true → d.Valid) := by
  cases h with
  | access _ hed => exact .inl (by rw [State.readEd, hed, State.readEd])
  | illegal => exact .inl rfl
  | reset rest hp => exact .inr (.inl ⟨rest, hp, resetBlock_readEd ..⟩)
  | command cmd rest i hp hd he =>
    rcases he.readEd_cases c with e | ⟨hn, hs, d, hfull⟩
    · exact .inl e
    · exact .inr (.inr ⟨cmd, rest, i, d, hp, hd, hn, hs, hfull⟩)

/-! ### The invariants -/

/-- Legal control registers are legal in every state that agrees on them and on the build. -/
theorem State.ControlLegal.congr {s t : State} (h : s.ControlLegal) (hstatus : t.status = s.status)
    (hfcmd : t.fcmd = s.fcmd) (hchecked : t.checked = s.checked) : t.ControlLegal := by
  rwa [State.ControlLegal, hstatus, hfcmd, hchecked]

/-- Fault entry with a cause that its word explains leaves the control registers legal. -/
theorem raise_controlLegal {s : State} {cause : Cause} {cmd : Cmd} (h : Explains s.checked cause cmd) :
    (raise cause cmd s).ControlLegal := .inr ⟨cause, rfl, h⟩

theorem explains_command {checked : Bool} {cause : Cause} {cmd : Cmd} {i : Instr} (hd : decode cmd = .ok i)
    (h : cause ∈ raisable checked i) : Explains checked cause cmd := by
  rw [Explains, hd]
  exact h

theorem explains_illegal {cmd : Cmd} (checked : Bool) (hd : decode cmd = .error .illegalCommand) :
    Explains checked .illegalCommand cmd := by
  rw [Explains, hd]

/-- Settles O24: a step that writes `STATUS` and `FCMD` is a `Reset`, or fault entry with the issued word (R33), which explains
the cause. -/
theorem controlRegistersStayLegal : Obligations.ControlRegistersStayLegal := by
  intro s t hs h
  cases step_cases h with
  | access _ _ hstatus hfcmd hchecked => exact hs.congr hstatus hfcmd hchecked
  | illegal cmd rest _ hd => exact raise_controlLegal (explains_illegal _ hd)
  | reset => exact .inl ⟨rfl, rfl⟩
  | command cmd rest i _ hd he =>
    rcases he.control_cases with ⟨hstatus, hfcmd⟩ | ⟨cause, hr, rfl⟩
    · exact hs.congr hstatus hfcmd he.checked_eq
    · rw [encode_of_decode hd]
      exact raise_controlLegal (explains_command hd hr)

theorem StepEffect.checked_eq {s t : State} (h : StepEffect s t) : t.checked = s.checked := by
  cases h with
  | access _ _ _ _ hchecked => exact hchecked
  | illegal | reset => rfl
  | command _ _ _ _ _ he => exact he.checked_eq

/-- What holds of every full Fast Division slot, and of whatever a construction writes, holds after the step too: a slot
full after it was full before with the same fields, or has just been written. -/
theorem StepEffect.forall_fd {s t : State} (h : StepEffect s t) {P : FdSlot → Prop} (hs : ∀ c d, s.readFd c = some d → P d)
    (hnew : ∀ d : FdSlot, d.Fits → (s.checked = true → d.Valid) → P d) : ∀ c d, t.readFd c = some d → P d := by
  intro c d hd
  rcases h.readFd_cases c with e | ⟨_, _, e⟩ | ⟨_, _, _, _, _, _, _, _, e, hfits, hvalid⟩
  · exact hs c d (e.symm.trans hd)
  · cases e.symm.trans hd
  · cases e.symm.trans hd
    exact hnew d hfits hvalid

/-- The same of the Exact Divisor slots. -/
theorem StepEffect.forall_ed {s t : State} (h : StepEffect s t) {P : EdSlot → Prop} (hs : ∀ c d, s.readEd c = some d → P d)
    (hnew : ∀ d : EdSlot, d.Fits → (s.checked = true → d.Valid) → P d) : ∀ c d, t.readEd c = some d → P d := by
  intro c d hd
  rcases h.readEd_cases c with e | ⟨_, _, e⟩ | ⟨_, _, _, _, _, _, _, _, e, hfits, hvalid⟩
  · exact hs c d (e.symm.trans hd)
  · cases e.symm.trans hd
  · cases e.symm.trans hd
    exact hnew d hfits hvalid

/-- Settles O25: what a construction stores or draws fits its width. -/
theorem slotFieldsStayInWidth : Obligations.SlotFieldsStayInWidth := by
  rintro s t ⟨hfd, hed⟩ h
  exact ⟨(step_cases h).forall_fd hfd fun _ hfits _ => hfits, (step_cases h).forall_ed hed fun _ hfits _ => hfits⟩

/-- Settles O26: on a checked build a construction that completes has violated nothing (R194), so what it stores is valid. -/
theorem checkedSlotsStayValid : Obligations.CheckedSlotsStayValid := by
  rintro s t hc ⟨hfd, hed⟩ h
  exact ⟨(step_cases h).checked_eq.trans hc, (step_cases h).forall_fd hfd fun _ _ hvalid => hvalid hc,
    (step_cases h).forall_ed hed fun _ _ hvalid => hvalid hc⟩

/-- Settles O27: the control registers are 0 and no slot is full. -/
theorem invariantsHoldAtReset : Obligations.InvariantsHoldAtReset := by
  intro checked
  have noFd {P : FdSlot → Prop} : ∀ c d, (State.resetOn checked).readFd c = some d → P d := fun c d h => by
    cases (readFd_resetOn checked c).symm.trans h
  have noEd {P : EdSlot → Prop} : ∀ c d, (State.resetOn checked).readEd c = some d → P d := fun c d h => by
    cases (readEd_resetOn checked c).symm.trans h
  exact ⟨.inl ⟨rfl, rfl⟩, ⟨noFd, noEd⟩, ⟨noFd, noEd⟩, rfl⟩

/-- Settles O16: `Reset` puts the block to the state `State.resetOn` of its own build, but for the host's side. -/
theorem resetReachesResetState : Obligations.ResetReachesResetState := by
  refine ⟨⟨readReg_resetOn false, readFd_resetOn false, readEd_resetOn false, rfl, rfl⟩, fun checked =>
    ⟨⟨readReg_resetOn checked, readFd_resetOn checked, readEd_resetOn checked, rfl, rfl⟩, rfl⟩, fun s rest hp => ?_⟩
  exact ⟨_, step_transact hp, ⟨resetBlock_readReg _, resetBlock_readFd _, resetBlock_readEd _, rfl, rfl⟩, rfl, rfl⟩

/-! ### Frames -/

theorem eq_fdnew_of_fdSlot {i : Instr} {c : SlotIdx} (hd : i.dest = none) (hs : i.fdSlot = some c) :
    ∃ rs, i = .fdnew32 rs c ∨ i = .fdnew64 rs c := by
  cases i with
  | fdnew32 rs => cases hs; exact ⟨rs, .inl rfl⟩
  | fdnew64 rs => cases hs; exact ⟨rs, .inr rfl⟩
  | ednew32 | ednew64 => cases hs
  | _ => cases hd

theorem eq_ednew_of_edSlot {i : Instr} {c : SlotIdx} (hd : i.dest = none) (hs : i.edSlot = some c) :
    ∃ rs, i = .ednew32 rs c ∨ i = .ednew64 rs c := by
  cases i with
  | ednew32 rs => cases hs; exact ⟨rs, .inl rfl⟩
  | ednew64 rs => cases hs; exact ⟨rs, .inr rfl⟩
  | fdnew32 | fdnew64 => cases hs
  | _ => cases hd

/-- Settles O28: a command with a destination is no construction, so it writes no slot. -/
theorem registerCommandFrame : Obligations.RegisterCommandFrame := by
  intro i s t rd hd h
  have he := exec_cases h
  have notNone : i.dest ≠ none := by simp [hd]
  refine ⟨fun r hr => he.readReg_eq (by simpa [hd] using hr.symm), fun c => ?_, fun c => ?_, he.checked_eq, he.host_eq.1,
    he.host_eq.2, ?_⟩
  · exact (he.readFd_cases c).resolve_right fun hn => notNone hn.1
  · exact (he.readEd_cases c).resolve_right fun hn => notNone hn.1
  · exact he.control_cases.imp_right fun ⟨cause, _, e⟩ => e ▸ ⟨⟨cause, rfl⟩, rfl, rfl, rfl⟩

/-- Settles O29: a construction has no destination, and writes the slot it names or performs fault entry. -/
theorem constructionFrame : Obligations.ConstructionFrame := by
  intro i s t hd h
  have he := exec_cases h
  refine ⟨fun r => he.readReg_eq (by simp [hd]), fun c hc => ?_, fun c hc => ?_, he.checked_eq, he.host_eq.1,
    he.host_eq.2, ?_⟩
  · exact (he.readFd_cases c).resolve_right fun hn => hc hn.2.1
  · exact (he.readEd_cases c).resolve_right fun hn => hc hn.2.1
  · exact he.control_cases.imp_right fun ⟨cause, _, e⟩ => e ▸ ⟨⟨cause, rfl⟩, rfl, fun _ => rfl, fun _ => rfl, rfl⟩

/-- Settles O30: of the commands only a construction writes a slot, the one it names. -/
theorem slotsChangeOnlyByConstructionOrReset : Obligations.SlotsChangeOnlyByConstructionOrReset := by
  intro s t c h
  constructor
  · intro hne
    rcases (step_cases h).readFd_cases c with e | hreset | ⟨cmd, rest, i, d, hp, hd, hn, hs, e, -⟩
    · exact absurd e hne
    · exact .inl hreset
    · obtain ⟨rs, hi⟩ := eq_fdnew_of_fdSlot hn hs
      exact .inr ⟨cmd, rest, rs, hp, by rwa [hd, Except.ok.injEq, Except.ok.injEq], by simp [e]⟩
  · intro hne
    rcases (step_cases h).readEd_cases c with e | hreset | ⟨cmd, rest, i, d, hp, hd, hn, hs, e, -⟩
    · exact absurd e hne
    · exact .inl hreset
    · obtain ⟨rs, hi⟩ := eq_ednew_of_edSlot hn hs
      exact .inr ⟨cmd, rest, rs, hp, by rwa [hd, Except.ok.injEq, Except.ok.injEq], by simp [e]⟩

/-! ### Constructions -/

section
variable {s : State} {w : WordWidth} {rs : RegIdx}

/-- R134, R135: `FDNEW` of a divisor in range stores its constants. -/
theorem fdNew_result (h0 : 0 < s.operand rs) (hw : s.operand rs < 2 ^ w.bits) (cmd : Cmd) (c : SlotIdx) :
    fdNew w cmd rs c s = s.writeFd c (fdInstance w (s.operand rs)) := by
  rcases fdNew_cases (s := s) w cmd rs c with ⟨h, -⟩ | ⟨h, -⟩ | ⟨-, -, e⟩
  · omega
  · omega
  · exact e

/-- R166, R167: `EDNEW` of an odd divisor in range stores its constants. -/
theorem edNew_result (hn : s.operand rs % 2 = 1) (hw : s.operand rs < 2 ^ w.bits) (cmd : Cmd) (c : SlotIdx) :
    edNew w cmd rs c s = s.writeEd c (edInstance w (s.operand rs)) := by
  rcases edNew_cases (s := s) w cmd rs c with ⟨h, -⟩ | ⟨h, -⟩ | ⟨-, -, h, -⟩ | ⟨-, -, e⟩
  · omega
  · omega
  · omega
  · exact e

end

/-- Settles O40: `FDNEW` stores the constants of its divisor, which are valid at either width. -/
theorem fdnewStoresValidInstance : Obligations.FdnewStoresValidInstance := by
  intro s rs c m h0
  exact ⟨fun hw => ⟨fdInstance .w32 m, rfl, fdInstance_m hw, fdInstance_valid h0 hw,
      congrArg _ (fdNew_result (w := .w32) h0 hw _ c)⟩,
    fun hw => ⟨fdInstance .w64 m, rfl, fdInstance_m hw, fdInstance_valid h0 hw,
      congrArg _ (fdNew_result (w := .w64) h0 hw _ c)⟩⟩

/-- Settles O51: `EDNEW` stores the constants of its divisor, which are valid at either width. -/
theorem ednewStoresValidInstance : Obligations.EdnewStoresValidInstance := by
  intro s rs c n hn
  exact ⟨fun hw => ⟨edInstance .w32 n, rfl, edInstance_n hw, edInstance_valid hn hw,
      congrArg _ (edNew_result (w := .w32) hn hw _ c)⟩,
    fun hw => ⟨edInstance .w64 n, rfl, edInstance_n hw, edInstance_valid hn hw,
      congrArg _ (edNew_result (w := .w64) hn hw _ c)⟩⟩

/-! ### What a command reads (R22, R29, R56) -/

/-- Two runs of a command with the same effect: the same fault, the same result or the same slot contents, or, on an
unchecked build, drawn values. -/
inductive SameEffect (i : Instr) (s s' : State) : State → State → Prop where
  | fault (cause : Cause) : SameEffect i s s' (raise cause (encode i) s) (raise cause (encode i) s')
  | result (rd : RegIdx) (v : Word) (hd : i.dest = some rd) : SameEffect i s s' (s.writeReg rd v) (s'.writeReg rd v)
  | newFd (c : SlotIdx) (d : FdSlot) (hd : i.dest = none) (hs : i.fdSlot = some c) :
      SameEffect i s s' (s.writeFd c d) (s'.writeFd c d)
  | newEd (c : SlotIdx) (d : EdSlot) (hd : i.dest = none) (hs : i.edSlot = some c) :
      SameEffect i s s' (s.writeEd c d) (s'.writeEd c d)
  | drew {t t' : State} (h : t.draws ≠ s.draws) : SameEffect i s s' t t'

section
variable {i : Instr} {s s' : State} (hc : s.checked = s'.checked)
include hc

theorem SameEffect.of_violate (cause : Cause) {u : State → State} (hu : (u s).draws ≠ s.draws) :
    SameEffect i s s' (violate cause (encode i) u s) (violate cause (encode i) u s') := by
  rcases violate_cases s cause (encode i) u with ⟨h, e⟩ | ⟨-, e⟩
  · rw [e, violate_checked s' (hc ▸ h)]
    exact .fault cause
  · rw [e]
    exact .drew hu

theorem SameEffect.of_scan {rd rs : RegIdx} (hrs : s.readReg rs = s'.readReg rs) (N : Nat) (F : Nat → Nat) (z : Bool)
    (hd : i.dest = some rd) : SameEffect i s s' (scan N F z (encode i) rd rs s) (scan N F z (encode i) rd rs s') := by
  have hop : s.operand rs = s'.operand rs := congrArg BitVec.toNat hrs
  have hdraw : (drawReg 32 rd s).draws ≠ s.draws := by simp [drawReg_eq]
  rcases scan_cases (s := s) N F z (encode i) rd rs with ⟨h, e⟩ | ⟨rfl, h, e⟩ | ⟨h, hz, e⟩
  · rw [e, scan_range (hop ▸ h)]
    exact .of_violate hc _ hdraw
  · rw [e, scan_zero (hop ▸ h)]
    exact .of_violate hc _ hdraw
  · rw [e, scan_result (hop ▸ h) (hop ▸ hz), hop]
    exact .result rd _ hd

theorem SameEffect.of_query {α : Type} {slot slot' : Option α} (hslot : slot = slot') {rd rs : RegIdx}
    (hrs : s.readReg rs = s'.readReg rs) (width : α → WordWidth) (drawn : Nat → Nat) (value : α → Nat → Nat)
    (hd : i.dest = some rd) : SameEffect i s s' (query slot width drawn value (encode i) rd rs s)
      (query slot' width drawn value (encode i) rd rs s') := by
  subst hslot
  have hop : s.operand rs = s'.operand rs := congrArg BitVec.toNat hrs
  rcases query_cases (s := s) slot width drawn value (encode i) rd rs with ⟨rfl, -⟩ | ⟨d, rfl, h, e⟩ | ⟨d, rfl, h, e⟩
  · exact .fault .ctxInvalid
  · rw [e, query_range (hop ▸ h)]
    exact .of_violate hc _ (by simp [drawReg_eq])
  · rw [e, query_result (hop ▸ h), hop]
    exact .result rd _ hd

omit hc in
theorem SameEffect.of_readOut {α : Type} {slot slot' : Option α} (hslot : slot = slot') {rd : RegIdx} (value : α → Nat)
    (hd : i.dest = some rd) :
    SameEffect i s s' (readOut slot value (encode i) rd s) (readOut slot' value (encode i) rd s') := by
  subst hslot
  cases slot with
  | none => exact .fault .ctxInvalid
  | some d => exact .result rd _ hd

theorem SameEffect.of_fdNew {rs : RegIdx} (hrs : s.readReg rs = s'.readReg rs) (w : WordWidth) {c : SlotIdx}
    (hd : i.dest = none) (hs : i.fdSlot = some c) :
    SameEffect i s s' (fdNew w (encode i) rs c s) (fdNew w (encode i) rs c s') := by
  have hop : s.operand rs = s'.operand rs := congrArg BitVec.toNat hrs
  have hdraw : (drawFd w c s).draws ≠ s.draws := by simp [drawFd_eq]
  simp only [fdNew, ← hop]
  split_ifs
  · exact .of_violate hc _ hdraw
  · exact .of_violate hc _ hdraw
  · exact .newFd c _ hd hs

theorem SameEffect.of_edNew {rs : RegIdx} (hrs : s.readReg rs = s'.readReg rs) (w : WordWidth) {c : SlotIdx}
    (hd : i.dest = none) (hs : i.edSlot = some c) :
    SameEffect i s s' (edNew w (encode i) rs c s) (edNew w (encode i) rs c s') := by
  have hop : s.operand rs = s'.operand rs := congrArg BitVec.toNat hrs
  have hdraw : (drawEd w c s).draws ≠ s.draws := by simp [drawEd_eq]
  simp only [edNew, ← hop]
  split_ifs
  · exact .of_violate hc _ hdraw
  · exact .of_violate hc _ hdraw
  · exact .of_violate hc _ hdraw
  · exact .newEd c _ hd hs

/-- A command has the same effect from two states of one build that agree on its source and on the slot it names. -/
theorem exec_sameEffect (hrs : ∀ rs, i.source = some rs → s.readReg rs = s'.readReg rs)
    (hfd : ∀ c, i.fdSlot = some c → s.readFd c = s'.readFd c) (hed : ∀ c, i.edSlot = some c → s.readEd c = s'.readEd c) :
    ∃ t t', exec i s = .next t ∧ exec i s' = .next t' ∧ SameEffect i s s' t t' := by
  cases i
  case popcnt32 | popcnt64 | popcnt128 | clz32 | clz64 | clz128 | ctz32 | ctz64 | ctz128 | ilog2_32 | ilog2_64 | ilog2_128 =>
    exact ⟨_, _, rfl, rfl, .of_scan hc (hrs _ rfl) _ _ _ rfl⟩
  case fdnew32 | fdnew64 => exact ⟨_, _, rfl, rfl, .of_fdNew hc (hrs _ rfl) _ rfl rfl⟩
  case fddiv | fdmod => exact ⟨_, _, rfl, rfl, .of_query hc (hfd _ rfl) (hrs _ rfl) _ _ _ rfl⟩
  case fdrdM | fdrdMul | fdrdShamt | fdrdW => exact ⟨_, _, rfl, rfl, .of_readOut (hfd _ rfl) _ rfl⟩
  case ednew32 | ednew64 => exact ⟨_, _, rfl, rfl, .of_edNew hc (hrs _ rfl) _ rfl rfl⟩
  case edtest | edquo => exact ⟨_, _, rfl, rfl, .of_query hc (hed _ rfl) (hrs _ rfl) _ _ _ rfl⟩
  case edrdN | edrdInv | edrdThr | edrdW => exact ⟨_, _, rfl, rfl, .of_readOut (hed _ rfl) _ rfl⟩

end

/-- Settles O31: the two runs have the same effect, and neither drew. -/
theorem commandsReadOnlyTheirOperands : Obligations.CommandsReadOnlyTheirOperands := by
  intro i s s' t t' hc hr hr' hrs hfd hed h h' hdraw _
  obtain ⟨u, u', e, e', hsame⟩ := exec_sameEffect hc hrs hfd hed
  cases h.symm.trans e
  cases h'.symm.trans e'
  have runs : s.halted = s'.halted := hr.trans hr'.symm
  have notHalted {P : Prop} : s.halted = true → P := fun hhalt => absurd (hr.symm.trans hhalt) Bool.false_ne_true
  cases hsame with
  | fault cause =>
    exact ⟨(halted_raise ..).trans (halted_raise ..).symm, fun _ => ⟨rfl, rfl⟩, fun hrun => by simp at hrun, hfd, hed⟩
  | result rd v hd =>
    refine ⟨runs, notHalted, fun _ rd' hd' => ?_, hfd, hed⟩
    cases hd.symm.trans hd'
    rw [readReg_writeReg_self, readReg_writeReg_self]
  | newFd c d hd hs =>
    refine ⟨runs, notHalted, fun _ rd' hd' => (by cases hd.symm.trans hd'), fun c' hs' => ?_, hed⟩
    cases hs.symm.trans hs'
    rw [readFd_writeFd_self, readFd_writeFd_self]
  | newEd c d hd hs =>
    refine ⟨runs, notHalted, fun _ rd' hd' => (by cases hd.symm.trans hd'), hfd, fun c' hs' => ?_⟩
    cases hs.symm.trans hs'
    rw [readEd_writeEd_self, readEd_writeEd_self]
  | drew hne => exact absurd hdraw hne

end Sys2Proof.Machine
end

section
/-! SUPPORT. Which words decode to no command (spec/30_encoding.md R80), the words of tools, and their byte layout
(spec/20_memory.md R58, R70). -/

namespace Sys2Proof

/-! ### Illegal words (R80) -/

open Laws.EncodedFieldsLegal in
/-- R72 to R76: the word of every command has legal fields. -/
theorem encode_wellFormed (i : Instr) : (CmdFields.ofWord (encode i)).wellFormed = true := by
  cases i
  exacts [popcnt32 .., popcnt64 .., popcnt128 .., clz32 .., clz64 .., clz128 .., ctz32 .., ctz64 .., ctz128 .., ilog2_32 ..,
    ilog2_64 .., ilog2_128 .., fdnew32 .., fdnew64 .., fddiv .., fdmod .., fdrdM .., fdrdMul .., fdrdShamt .., fdrdW ..,
    ednew32 .., ednew64 .., edtest .., edquo .., edrdN .., edrdInv .., edrdThr .., edrdW ..]

/-- R80: a word with an illegal field decodes to no command, for it would be that command's word. -/
theorem decode_of_not_wellFormed {cmd : Cmd} (h : (CmdFields.ofWord cmd).wellFormed = false) :
    decode cmd = .error .illegalCommand := by
  cases hd : decode cmd with
  | error => rfl
  | ok i =>
    have hlegal := encode_wellFormed i
    rw [encode_of_decode hd, h] at hlegal
    cases hlegal

/-! ### Words given by their number (log 16) -/

theorem decode_of_decodeTableWord {nbits w : Nat} {i : Instr} (h : decodeTableWord nbits w = some i) :
    decode (tableWord nbits w) = .ok i := by
  rw [decodeTableWord] at h
  cases hd : decode (tableWord nbits w) <;> simp_all [Except.toOption]

/-! ### The byte layout of tools (R58) -/

theorem layoutValue_append (a b : List Byte) : layoutValue (a ++ b) = layoutValue a + 256 ^ a.length * layoutValue b := by
  induction a with
  | nil => simp [layoutValue]
  | cons x a ih =>
    rw [List.cons_append, layoutValue, layoutValue, ih, List.length_cons, pow_succ']
    ring

/-- The low `n` bytes of a value, least significant first, stand for the value `mod 2^(8n)`. -/
theorem layoutValue_lowBytes {w : Nat} (v : BitVec w) (n : Nat) :
    layoutValue ((List.range n).map fun b => v.extractLsb' (8 * b) 8) = v.toNat % 2 ^ (8 * n) := by
  induction n with
  | zero => simp [layoutValue, Nat.mod_one]
  | succ n ih =>
    have hbytes : 256 ^ n = 2 ^ (8 * n) := (pow_mul 2 8 n).symm
    rw [List.range_succ, List.map_append, layoutValue_append, ih, List.length_map, List.length_range, hbytes, Nat.mul_succ,
      pow_add, Nat.mod_mul]
    simp [layoutValue, Nat.shiftRight_eq_div_pow]

theorem layoutValue_layout (n : Nat) (v : BitVec (8 * n)) : layoutValue (layout n v) = v.toNat := by
  rw [layout, layoutValue_lowBytes, Nat.mod_eq_of_lt v.isLt]

theorem layout_length (n : Nat) (v : BitVec (8 * n)) : (layout n v).length = n := by simp [layout]

theorem layout_getElem? {n b : Nat} (v : BitVec (8 * n)) (h : b < n) :
    (layout n v)[b]? = some (v.extractLsb' (8 * b) 8) := by simp [layout, h]

/-- R70: the four bytes in front are read as one word. -/
theorem decodeBytes_append {bytes : List Byte} (h : bytes.length = 4) (rest : List Byte) :
    decodeBytes (bytes ++ rest) = (decode (BitVec.ofNat 32 (layoutValue bytes))).map (·, rest) := by
  obtain ⟨b0, b1, b2, b3, rfl⟩ := List.length_eq_four.mp h
  rfl

/-- Settles O8: the layout of a word has four bytes and stands for the word. -/
theorem toolLayoutIsLittleEndian : Obligations.ToolLayoutIsLittleEndian := by
  refine ⟨fun n v => ⟨layout_length n v, fun b => layout_getElem? v, layoutValue_layout n v⟩, fun cmd rest => ?_⟩
  rw [decodeBytes_append (layout_length 4 cmd), layoutValue_layout, BitVec.ofNat_toNat, BitVec.setWidth_eq]

end Sys2Proof
end

section
/-! SUPPORT. The transactions of a run and their order (spec/20_memory.md R52 to R56, R61), and the commutation of commands
that write registers (R64). -/

namespace Sys2Proof.Machine

/-! ### The list of pending transactions is read by the step alone (R61, R229) -/

/-- The state with another list of transactions still to be performed (log 2). -/
def State.withPending (s : State) (p : List Transaction) : State := { s with pending := p }

section
variable (s : State) (p : List Transaction)

theorem operand_withPending (rs : RegIdx) : (s.withPending p).operand rs = s.operand rs := rfl

theorem violate_withPending (cause : Cause) (cmd : Cmd) {u : State → State}
    (hu : u (s.withPending p) = (u s).withPending p) :
    violate cause cmd u (s.withPending p) = (violate cause cmd u s).withPending p := by
  rcases violate_cases s cause cmd u with ⟨hc, e⟩ | ⟨hc, e⟩
  · rw [e, violate_checked (s.withPending p) hc]
    rfl
  · rw [e, violate_unchecked (s.withPending p) hc, hu]

theorem scan_withPending (N : Nat) (F : Nat → Nat) (z : Bool) (cmd : Cmd) (rd rs : RegIdx) :
    scan N F z cmd rd rs (s.withPending p) = (scan N F z cmd rd rs s).withPending p := by
  rcases scan_cases (s := s) N F z cmd rd rs with ⟨h, e⟩ | ⟨rfl, h, e⟩ | ⟨h, hz, e⟩
  · rw [e, scan_range (s := s.withPending p) h, violate_withPending s p _ _ rfl]
  · rw [e, scan_zero (s := s.withPending p) h, violate_withPending s p _ _ rfl]
  · rw [e, scan_result (s := s.withPending p) h hz]
    rfl

theorem query_withPending {α : Type} (slot : Option α) (width : α → WordWidth) (drawn : Nat → Nat) (value : α → Nat → Nat)
    (cmd : Cmd) (rd rs : RegIdx) : query slot width drawn value cmd rd rs (s.withPending p) =
      (query slot width drawn value cmd rd rs s).withPending p := by
  rcases query_cases (s := s) slot width drawn value cmd rd rs with ⟨rfl, -⟩ | ⟨d, rfl, h, e⟩ | ⟨d, rfl, h, e⟩
  · rfl
  · rw [e, query_range (s := s.withPending p) h, violate_withPending s p _ _ rfl]
  · rw [e, query_result (s := s.withPending p) h]
    rfl

theorem readOut_withPending {α : Type} (slot : Option α) (value : α → Nat) (cmd : Cmd) (rd : RegIdx) :
    readOut slot value cmd rd (s.withPending p) = (readOut slot value cmd rd s).withPending p := by
  cases slot <;> rfl

theorem fdNew_withPending (w : WordWidth) (cmd : Cmd) (rs : RegIdx) (c : SlotIdx) :
    fdNew w cmd rs c (s.withPending p) = (fdNew w cmd rs c s).withPending p := by
  have hviolate (cause : Cause) := violate_withPending s p cause cmd (u := drawFd w c) rfl
  simp only [fdNew, operand_withPending, hviolate]
  split_ifs <;> rfl

theorem edNew_withPending (w : WordWidth) (cmd : Cmd) (rs : RegIdx) (c : SlotIdx) :
    edNew w cmd rs c (s.withPending p) = (edNew w cmd rs c s).withPending p := by
  have hviolate (cause : Cause) := violate_withPending s p cause cmd (u := drawEd w c) rfl
  simp only [edNew, operand_withPending, hviolate]
  split_ifs <;> rfl

end

section
variable {s s' : State}

/-- R56: what a command does depends on no transaction after it. -/
theorem exec_withPending {i : Instr} (h : exec i s = .next s') (p : List Transaction) :
    exec i (s.withPending p) = .next (s'.withPending p) := by
  cases i
  case popcnt32 | popcnt64 | popcnt128 | clz32 | clz64 | clz128 | ctz32 | ctz64 | ctz128 | ilog2_32 | ilog2_64 | ilog2_128 =>
    cases h
    exact congrArg _ (scan_withPending ..)
  case fdnew32 | fdnew64 =>
    cases h
    exact congrArg _ (fdNew_withPending ..)
  case ednew32 | ednew64 =>
    cases h
    exact congrArg _ (edNew_withPending ..)
  case fddiv | fdmod | edtest | edquo =>
    cases h
    exact congrArg _ (query_withPending ..)
  case fdrdM | fdrdMul | fdrdShamt | fdrdW | edrdN | edrdInv | edrdThr | edrdW =>
    cases h
    exact congrArg _ (readOut_withPending ..)

theorem issue_withPending {cmd : Cmd} (h : issue cmd s = .next s') (p : List Transaction) :
    issue cmd (s.withPending p) = .next (s'.withPending p) := by
  cases hs : s.halted with
  | true =>
    cases (issue_halted hs cmd).symm.trans h
    exact issue_halted (s := s.withPending p) hs cmd
  | false =>
    cases hd : decode cmd with
    | ok i =>
      have he : exec i s = .next s' := (issue_command hs hd).symm.trans h
      exact (issue_command (s := s.withPending p) hs hd).trans (exec_withPending he p)
    | error e =>
      cases (issue_illegal hs hd).symm.trans h
      exact issue_illegal (s := s.withPending p) hs hd

theorem hostWriteReg_running (h : s.halted = false) (j : RegIdx) (v : Word) : hostWriteReg j v s = s.writeReg j v := by
  simp [hostWriteReg, h]

theorem hostWriteReg_halted (h : s.halted = true) (j : RegIdx) (v : Word) : hostWriteReg j v s = s := by
  simp [hostWriteReg, h]

theorem hostWriteReg_withPending (s : State) (p : List Transaction) (j : RegIdx) (v : Word) :
    hostWriteReg j v (s.withPending p) = (hostWriteReg j v s).withPending p := by
  cases h : s.halted with
  | true => rw [hostWriteReg_halted h, hostWriteReg_halted (s := s.withPending p) h]
  | false =>
    rw [hostWriteReg_running h, hostWriteReg_running (s := s.withPending p) h]
    rfl

/-- R61: each transaction takes effect completely before the next begins, so it neither reads nor writes what is pending. -/
theorem transact_withPending {t : Transaction} (h : transact t s = .next s') (p : List Transaction) :
    transact t (s.withPending p) = .next (s'.withPending p) := by
  cases t with
  | hostWriteReg j v =>
    cases h
    exact congrArg _ (hostWriteReg_withPending s p j v)
  | hostReadReg | hostReadCtl | reset =>
    cases h
    rfl
  | issue cmd => exact issue_withPending h p

/-! ### Runs (R61, R229) -/

theorem runList_cons {t : Transaction} (h : transact t s = .next s') (ts : List Transaction) :
    runList (t :: ts) s = runList ts s' := by
  rw [runList, h]

theorem run_succ_of_step {M : Host.Core} {s s' : M.State} (h : M.step s = .next s') (k : Nat) :
    M.run (k + 1) s = M.run k s' := by
  rw [Host.Core.run, h]

end

/-- Settles O12, by induction on the list: its first transaction is one step of the machine and one of the run, whatever is
pending after it. -/
theorem runsAreSteps : Obligations.RunsAreSteps := by
  intro ts rest
  induction ts with
  | nil => exact fun _ => rfl
  | cons t ts ih =>
    intro s
    obtain ⟨s', e, -⟩ := transact_next t s
    have hstep : core.step (s.withPending (t :: (ts ++ rest))) = .next (s'.withPending (ts ++ rest)) :=
      (step_transact (s := s.withPending (t :: (ts ++ rest))) rfl).trans (transact_withPending e _)
    have hrun : runList (t :: ts) (s.withPending rest) = runList ts (s'.withPending rest) :=
      runList_cons (transact_withPending e rest) ts
    exact (run_succ_of_step hstep ts.length).trans ((ih s').trans hrun.symm)

/-- Settles O13, by induction on the first list: every transaction completes in a next state. -/
theorem runsCompose : Obligations.RunsCompose := by
  intro as bs
  induction as with
  | nil => exact fun s => ⟨s, rfl, rfl⟩
  | cons a as ih =>
    intro s
    obtain ⟨s', e, -⟩ := transact_next a s
    obtain ⟨t, hrun, happend⟩ := ih s'
    exact ⟨t, (runList_cons e as).trans hrun, (runList_cons e (as ++ bs)).trans happend⟩

/-! ### The commutation law (R64) -/

section
variable {i : Instr} {s s' t t' : State} {rd : RegIdx}

/-- A command with a destination that neither faults nor draws writes its result there, the same in both runs. -/
theorem SameEffect.eq_writeReg (h : SameEffect i s s' t t') (hd : i.dest = some rd) (hrun : t.halted = false)
    (hdraw : t.draws = s.draws) :
    t = s.writeReg rd (t.readReg rd) ∧ t' = s'.writeReg rd (t.readReg rd) := by
  cases h with
  | fault => simp at hrun
  | result rd' v hd' =>
    cases hd.symm.trans hd'
    rw [readReg_writeReg_self]
    exact ⟨rfl, rfl⟩
  | newFd _ _ hd' | newEd _ _ hd' => cases hd.symm.trans hd'
  | drew hne => exact absurd hdraw hne

/-- Such a command writes the same result after a write to a register it does not read. -/
theorem exec_eq_writeReg (h : exec i s = .next t) (hd : i.dest = some rd) (hrun : t.halted = false)
    (hdraw : t.draws = s.draws) {r : RegIdx} (hr : i.source ≠ some r) (w : Word) :
    t = s.writeReg rd (t.readReg rd) ∧ exec i (s.writeReg r w) = .next ((s.writeReg r w).writeReg rd (t.readReg rd)) := by
  obtain ⟨u, u', e, e', hsame⟩ := exec_sameEffect (i := i) (s := s) (s' := s.writeReg r w) rfl
    (fun rs hrs => (readReg_writeReg_ne s (by rintro rfl; exact hr hrs) w).symm) (fun _ _ => rfl) (fun _ _ => rfl)
  cases h.symm.trans e
  obtain ⟨ht, hu'⟩ := hsame.eq_writeReg hd hrun hdraw
  exact ⟨ht, e'.trans (congrArg _ hu')⟩

end

/-- Writes to two registers commute. -/
theorem writeReg_comm (s : State) {a b : RegIdx} (h : a ≠ b) (v w : Word) :
    (s.writeReg a v).writeReg b w = (s.writeReg b w).writeReg a v := by
  have hv : a.val ≠ b.val := fun e => h (Fin.ext e)
  simp only [State.writeReg, Vector.set_comm _ _ hv]

/-- `FDNEW.32` of the divisor 10 into a slot that holds the divisor 7, and `FDDIV` of 100 by the slot: 10 in one order, 14 in
the other. -/
theorem construction_query_not_commute :
    ∃ (s sN sQ t u : State), exec (.fdnew32 4 0) s = .next sN ∧ exec (.fddiv 3 2 0) sN = .next t ∧
      exec (.fddiv 3 2 0) s = .next sQ ∧ exec (.fdnew32 4 0) sQ = .next u ∧ t.halted = false ∧ u.halted = false ∧ t ≠ u := by
  refine ⟨busy true, _, _, _, _, rfl, rfl, rfl, rfl, by decide, by decide, fun e => ?_⟩
  exact absurd (congrArg (·.readReg 3) e) (by decide)

/-- Settles O32: each command writes the same result before the other and after it, and the two writes commute. -/
theorem queriesCommute : Obligations.QueriesCommute := by
  refine ⟨fun A B s sA sB ra rb hA hB hne hBa hAb _ eA eB runA runB drawA drawB => ?_, construction_query_not_commute⟩
  obtain ⟨hsA, eAB⟩ := exec_eq_writeReg eA hA runA drawA hAb (sB.readReg rb)
  obtain ⟨hsB, eBA⟩ := exec_eq_writeReg eB hB runB drawB hBa (sA.readReg ra)
  rw [writeReg_comm s hne.symm] at eAB
  exact ⟨_, (congrArg (exec B) hsA).trans eBA, (congrArg (exec A) hsB).trans eAB⟩

/-! ### Illegal words (R80) -/

/-- Settles O6: such a word decodes to no command, so `issue` performs fault entry with the word itself. -/
theorem illegalWordRaises : Obligations.IllegalWordRaises :=
  ⟨fun _ _ hs hw => issue_illegal hs (decode_of_not_wellFormed hw), by decide, by decide⟩

/-! ### Steps by the kind of transaction (R53 to R56) -/

theorem step_issue {s : State} {cmd : Cmd} {rest : List Transaction} {i : Instr} (hp : s.pending = .issue cmd :: rest)
    (hs : s.halted = false) (hd : decode cmd = .ok i) : step s = exec i { s with pending := rest } :=
  (step_transact hp).trans (issue_command (s := { s with pending := rest }) hs hd)

/-- Settles O10: the step issues the word, and a running block carries out its command. -/
theorem stepRunsDecodedCommand : Obligations.StepRunsDecodedCommand :=
  ⟨fun _ _ _ _ => step_issue, fun s w _ hs hd =>
    step_issue (s := s.withFetchWord 32 w) rfl hs (decode_of_decodeTableWord hd)⟩

/-- Settles O11: an idle step, and a step with a transaction pending. -/
theorem stepTakesNextTransaction : Obligations.StepTakesNextTransaction :=
  fun _ => ⟨step_idle, fun _ _ => step_transact⟩

/-- Settles O14: the step is `hostWriteReg`, on a running and on a halted block. -/
theorem hostWriteRegister : Obligations.HostWriteRegister := by
  intro s j v rest hp
  rw [step_transact hp]
  exact ⟨fun h => congrArg _ (hostWriteReg_running (s := { s with pending := rest }) h j v),
    fun h => congrArg _ (hostWriteReg_halted (s := { s with pending := rest }) h j v)⟩

/-- R55: every control register but the first three reads 0. -/
theorem readCtl_of_two_lt (s : State) {j : BitVec 32} (h : 2 < j.toNat) : s.readCtl j = 0 := by
  have ne {k : BitVec 32} (hk : k.toNat ≤ 2) : j ≠ k := by
    rintro rfl
    omega
  rw [State.readCtl, if_neg (ne (by decide)), if_neg (ne (by decide)), if_neg (ne (by decide))]

/-- Settles O15: the value added to the list is `x[j]`, or that of the control register. -/
theorem hostReadsReturnAndChangeNothing : Obligations.HostReadsReturnAndChangeNothing := by
  refine ⟨fun _ _ _ => step_transact, fun s j _ hp =>
    ⟨s.readCtl j, step_transact hp, ?_, ?_, ?_, readCtl_of_two_lt s⟩⟩ <;>
  · rintro rfl
    rfl

end Sys2Proof.Machine
end

section
/-! SUPPORT. The rows of the opcode map (spec/30_encoding.md R78): no two of them match one word, so a word decodes to the
command of the row it matches (R79). The word of every command, and every word with legal fields (R72 to R76), matches one. -/

namespace Sys2Proof

/-! ### The rows and the decoder (R79) -/

theorem Row.matches_iff_masked {r : Row} {cmd : Cmd} : r.matches cmd = true ↔ cmd &&& r.mask = r.pattern := beq_iff_eq

/-- Two rows that differ in a bit which both masks test match no word in common. -/
theorem Row.not_both_match {a b : Row} (h : a.pattern &&& b.mask ≠ b.pattern &&& a.mask) (cmd : Cmd) :
    ¬ (a.matches cmd = true ∧ b.matches cmd = true) := by
  rintro ⟨ha, hb⟩
  rw [Row.matches_iff_masked] at ha hb
  rw [← ha, ← hb, BitVec.and_assoc, BitVec.and_assoc, BitVec.and_comm a.mask] at h
  exact h rfl

theorem opcodeMap_not_both_match :
    opcodeMap.Pairwise fun a b => ∀ cmd, ¬ (a.matches cmd = true ∧ b.matches cmd = true) := by
  have differ : opcodeMap.Pairwise fun a b => a.pattern &&& b.mask ≠ b.pattern &&& a.mask := by decide
  exact differ.imp Row.not_both_match

/-- R79: whichever row matches a word, the word decodes to its command, for no row before it matches. -/
theorem decode_of_matches {r : Row} (hr : r ∈ opcodeMap) {cmd : Cmd} (h : r.matches cmd = true) :
    decode cmd = .ok (r.instr (.ofWord cmd)) := by
  obtain ⟨before, after, hsplit⟩ := List.append_of_mem hr
  have hpairs := opcodeMap_not_both_match
  rw [hsplit, List.pairwise_append] at hpairs
  obtain ⟨-, -, hbefore⟩ := hpairs
  have hfind : opcodeMap.find? (·.matches cmd) = some r := by
    refine List.find?_eq_some_iff_append.mpr ⟨h, before, after, hsplit, fun a ha => ?_⟩
    simpa [h] using hbefore a ha r List.mem_cons_self cmd
  rw [decode, hfind]

/-- R80: a word that no row matches is illegal. -/
theorem decode_of_no_match {cmd : Cmd} (h : ∀ r ∈ opcodeMap, r.matches cmd = false) :
    decode cmd = .error .illegalCommand := by
  have hnone : opcodeMap.find? (·.matches cmd) = none := by simpa using h
  rw [decode, hnone]

/-- The legal words are those that some row matches. -/
theorem decode_ok_iff {cmd : Cmd} : (∃ i, decode cmd = .ok i) ↔ ∃ r ∈ opcodeMap, r.matches cmd = true := by
  constructor
  · rintro ⟨i, hi⟩
    obtain ⟨r, hr, hm, -⟩ := decode_ok hi
    exact ⟨r, hr, hm⟩
  · rintro ⟨r, hr, hm⟩
    exact ⟨_, decode_of_matches hr hm⟩

/-- Settles O3: the row a word matches is the only one, and `issue` carries out what the word decodes to. -/
theorem decodingTestsTheRows : Obligations.DecodingTestsTheRows :=
  ⟨rfl, fun _ _ _ => Row.matches_iff_masked, opcodeMap_not_both_match,
    fun _ hr _ hm => ⟨decode_of_matches hr hm, fun _ hs => Machine.issue_command hs (decode_of_matches hr hm)⟩,
    fun _ => decode_of_no_match⟩

/-! ### The masks of the formats (R77): a word of the format, masked, is the word of its fixed fields -/

theorem formatS_masked (op : BitVec 8) (w : BitVec 4) (rd rs : RegIdx) :
    formatS op w rd rs &&& 0xFFF00FFF = formatS op w 0 0 := by
  rw [show (0xFFF00FFF : Cmd) = CmdFields.word ⟨0xFF, 0xF, 0, 0, 0xF, 0xFF⟩ by decide]
  simp [formatS, CmdFields.word_and, CmdFields.and, bitsOfReg]

theorem formatN_masked (op : BitVec 8) (w : BitVec 4) (rs : RegIdx) (c : SlotIdx) :
    formatN op w rs c &&& 0xFFFF0F00 = formatN op w 0 0 := by
  rw [show (0xFFFF0F00 : Cmd) = CmdFields.word ⟨0xFF, 0xF, 0xF, 0, 0xF, 0⟩ by decide]
  simp [formatN, CmdFields.word_and, CmdFields.and, bitsOfReg, bitsOfSlot]

theorem formatQ_masked (op : BitVec 8) (rd rs : RegIdx) (c : SlotIdx) :
    formatQ op rd rs c &&& 0xFFF00F00 = formatQ op 0 0 0 := by
  rw [show (0xFFF00F00 : Cmd) = CmdFields.word ⟨0xFF, 0xF, 0, 0, 0xF, 0⟩ by decide]
  simp [formatQ, CmdFields.word_and, CmdFields.and, bitsOfReg, bitsOfSlot]

theorem formatG_masked (op : BitVec 8) (f : BitVec 4) (rd : RegIdx) (c : SlotIdx) :
    formatG op f rd c &&& 0xFFF0FF00 = formatG op f 0 0 := by
  rw [show (0xFFF0FF00 : Cmd) = CmdFields.word ⟨0xFF, 0xF, 0, 0xF, 0xF, 0⟩ by decide]
  simp [formatG, CmdFields.word_and, CmdFields.and, bitsOfReg, bitsOfSlot]

/-! ### Decoding a word of each format: it matches any row with the mask of the format and the word's fixed fields -/

theorem decode_word {r : Row} (hr : r ∈ opcodeMap) {k : CmdFields} (h : k.word &&& r.mask = r.pattern) :
    decode k.word = .ok (r.instr k) := by
  rw [decode_of_matches hr (Row.matches_iff_masked.mpr h), CmdFields.ofWord_word]

section
variable {r : Row} (hr : r ∈ opcodeMap) {op : BitVec 8} {w f : BitVec 4}
include hr

theorem decode_formatS (hmask : r.mask = 0xFFF00FFF := by rfl)
    (hpattern : r.pattern = formatS op w 0 0 := by rfl) (rd rs : RegIdx) :
    decode (formatS op w rd rs) = .ok (r.instr ⟨op, w, bitsOfReg rd, bitsOfReg rs, 0, 0⟩) :=
  decode_word hr (by rw [hmask, hpattern]; exact formatS_masked op w rd rs)

theorem decode_formatN (hmask : r.mask = 0xFFFF0F00 := by rfl)
    (hpattern : r.pattern = formatN op w 0 0 := by rfl) (rs : RegIdx) (c : SlotIdx) :
    decode (formatN op w rs c) = .ok (r.instr ⟨op, w, 0, bitsOfReg rs, 0, bitsOfSlot c⟩) :=
  decode_word hr (by rw [hmask, hpattern]; exact formatN_masked op w rs c)

theorem decode_formatQ (hmask : r.mask = 0xFFF00F00 := by rfl)
    (hpattern : r.pattern = formatQ op 0 0 0 := by rfl) (rd rs : RegIdx) (c : SlotIdx) :
    decode (formatQ op rd rs c) = .ok (r.instr ⟨op, 0, bitsOfReg rd, bitsOfReg rs, 0, bitsOfSlot c⟩) :=
  decode_word hr (by rw [hmask, hpattern]; exact formatQ_masked op rd rs c)

theorem decode_formatG (hmask : r.mask = 0xFFF0FF00 := by rfl)
    (hpattern : r.pattern = formatG op f 0 0 := by rfl) (rd : RegIdx) (c : SlotIdx) :
    decode (formatG op f rd c) = .ok (r.instr ⟨op, 0, bitsOfReg rd, 0, f, bitsOfSlot c⟩) :=
  decode_word hr (by rw [hmask, hpattern]; exact formatG_masked op f rd c)

end

/-- A row named by its place in the opcode map. -/
theorem row_mem (n : Nat) (h : n < opcodeMap.length := by decide) : opcodeMap[n] ∈ opcodeMap := List.getElem_mem h

/-- Settles O1: each command's word has the format of its row, and the rows stand in the order of the commands. -/
theorem decodeOfEncode : Obligations.DecodeOfEncode := by
  intro i
  cases i
  exacts [decode_formatS (row_mem 0) .., decode_formatS (row_mem 1) .., decode_formatS (row_mem 2) ..,
    decode_formatS (row_mem 3) .., decode_formatS (row_mem 4) .., decode_formatS (row_mem 5) ..,
    decode_formatS (row_mem 6) .., decode_formatS (row_mem 7) .., decode_formatS (row_mem 8) ..,
    decode_formatS (row_mem 9) .., decode_formatS (row_mem 10) .., decode_formatS (row_mem 11) ..,
    decode_formatN (row_mem 12) .., decode_formatN (row_mem 13) .., decode_formatQ (row_mem 14) ..,
    decode_formatQ (row_mem 15) .., decode_formatG (row_mem 16) .., decode_formatG (row_mem 17) ..,
    decode_formatG (row_mem 18) .., decode_formatG (row_mem 19) .., decode_formatN (row_mem 20) ..,
    decode_formatN (row_mem 21) .., decode_formatQ (row_mem 22) .., decode_formatQ (row_mem 23) ..,
    decode_formatG (row_mem 24) .., decode_formatG (row_mem 25) .., decode_formatG (row_mem 26) ..,
    decode_formatG (row_mem 27) ..]

/-- Settles O2: row by row of the opcode map, in `encode_of_decode`. -/
theorem encodeOfDecode : Obligations.EncodeOfDecode := fun _ _ => encode_of_decode

/-- Settles O7: the legal words are those of their commands, and the others have an illegal field: `w` (R73), `rd`, `rs` (R74). -/
theorem writtenOutWordsDecode : Obligations.WrittenOutWordsDecode :=
  ⟨decodeOfEncode (.clz64 3 1), decodeOfEncode (.popcnt128 15 15), decodeOfEncode (.fdnew64 15 255),
    decodeOfEncode (.fdmod 15 14 200), decodeOfEncode (.fdrdShamt 5 0), decodeOfEncode (.edtest 4 2 7),
    decodeOfEncode (.edrdThr 9 7), decode_of_not_wellFormed (by decide), decode_of_not_wellFormed (by decide),
    decode_of_not_wellFormed (by decide)⟩

end Sys2Proof
end

section
/-! SUPPORT. A word decodes exactly when its fields pass the checks of the prose (spec/30_encoding.md R72 to R76, R80). -/

namespace Sys2Proof

/-! ### The checks of the prose, by kind of command -/

namespace CmdFields

/-- The kinds of opcode of R72 exclude each other. -/
theorem isScan_excludes {k : CmdFields} (h : k.isScan = true) : k.isNew = false ∧ k.isGet = false := by
  simp [isScan, isNew, isGet] at *
  omega

theorem isNew_excludes {k : CmdFields} (h : k.isNew = true) : k.isScan = false ∧ k.isGet = false := by
  simp [isScan, isNew, isGet] at *
  omega

theorem isQuery_excludes {k : CmdFields} (h : k.isQuery = true) :
    k.isScan = false ∧ k.isNew = false ∧ k.isGet = false := by
  simp [isScan, isNew, isQuery, isGet] at *
  omega

theorem isGet_excludes {k : CmdFields} (h : k.isGet = true) : k.isScan = false ∧ k.isNew = false := by
  simp [isScan, isNew, isGet] at *
  omega

/-- A word passes the checks of R72 to R76 as a bit-scan command, a construction, a query or a read-out, each with the fields
of its format free (R77). -/
theorem wellFormed_cases {k : CmdFields} (h : k.wellFormed = true) :
    (k.isScan = true ∧ k.w.toNat ≤ 2 ∧ k.f = 0 ∧ k.c = 0) ∨ (k.isNew = true ∧ k.w.toNat ≤ 1 ∧ k.rd = 0 ∧ k.f = 0) ∨
    (k.isQuery = true ∧ k.w = 0 ∧ k.f = 0) ∨ (k.isGet = true ∧ k.w = 0 ∧ k.rs = 0 ∧ k.f.toNat ≤ 3) := by
  simp only [wellFormed, opAssigned, widthLegal, destLegal, sourceLegal, selectorLegal, slotLegal, Bool.and_eq_true,
    Bool.or_eq_true] at h
  obtain ⟨⟨⟨⟨⟨((hscan | hnew) | hquery) | hget, hw⟩, hrd⟩, hrs⟩, hf⟩, hc⟩ := h
  · have hnot := isScan_excludes hscan
    simp_all [BitVec.toNat_eq]
  · have hnot := isNew_excludes hnew
    simp_all [BitVec.toNat_eq]
  · have hnot := isQuery_excludes hquery
    simp_all [BitVec.toNat_eq]
  · have hnot := isGet_excludes hget
    simp_all [BitVec.toNat_eq]

end CmdFields

/-! ### Every kind of command has a row of the opcode map for each opcode and selector its checks accept (R78) -/

theorem exists_row_of_isScan : ∀ (op : BitVec 8) (w : BitVec 4),
    CmdFields.isScan ⟨op, w, 0, 0, 0, 0⟩ = true → w.toNat ≤ 2 →
      ∃ r ∈ opcodeMap, r.mask = 0xFFF00FFF ∧ r.pattern = formatS op w 0 0 := by decide

theorem exists_row_of_isNew : ∀ (op : BitVec 8) (w : BitVec 4),
    CmdFields.isNew ⟨op, w, 0, 0, 0, 0⟩ = true → w.toNat ≤ 1 →
      ∃ r ∈ opcodeMap, r.mask = 0xFFFF0F00 ∧ r.pattern = formatN op w 0 0 := by decide

theorem exists_row_of_isQuery : ∀ op : BitVec 8, CmdFields.isQuery ⟨op, 0, 0, 0, 0, 0⟩ = true →
    ∃ r ∈ opcodeMap, r.mask = 0xFFF00F00 ∧ r.pattern = formatQ op 0 0 0 := by decide

theorem exists_row_of_isGet : ∀ (op : BitVec 8) (f : BitVec 4),
    CmdFields.isGet ⟨op, 0, 0, 0, f, 0⟩ = true → f.toNat ≤ 3 →
      ∃ r ∈ opcodeMap, r.mask = 0xFFF0FF00 ∧ r.pattern = formatG op f 0 0 := by decide

/-- R77: fields that pass the checks make a word of their row's format, which decodes. -/
theorem decode_of_wellFormed {k : CmdFields} (h : k.wellFormed = true) : ∃ i, decode k.word = .ok i := by
  rcases k.wellFormed_cases h with ⟨hscan, hw, hf, hc⟩ | ⟨hnew, hw, hrd, hf⟩ | ⟨hquery, hw, hf⟩ | ⟨hget, hw, hrs, hf⟩ <;>
    obtain ⟨op, w, rd, rs, f, c⟩ := k
  · cases hf
    cases hc
    obtain ⟨r, hr, hmask, hpattern⟩ := exists_row_of_isScan op w hscan hw
    exact ⟨_, decode_formatS hr hmask hpattern (regOfBits rd) (regOfBits rs)⟩
  · cases hrd
    cases hf
    obtain ⟨r, hr, hmask, hpattern⟩ := exists_row_of_isNew op w hnew hw
    exact ⟨_, decode_formatN hr hmask hpattern (regOfBits rs) (slotOfBits c)⟩
  · cases hw
    cases hf
    obtain ⟨r, hr, hmask, hpattern⟩ := exists_row_of_isQuery op hquery
    exact ⟨_, decode_formatQ hr hmask hpattern (regOfBits rd) (regOfBits rs) (slotOfBits c)⟩
  · cases hw
    cases hrs
    obtain ⟨r, hr, hmask, hpattern⟩ := exists_row_of_isGet op f hget hf
    exact ⟨_, decode_formatG hr hmask hpattern (regOfBits rd) (slotOfBits c)⟩

/-- Settles O4: a word that decodes is its command's word, whose fields are legal; a word with legal fields has a row. -/
theorem legalWordsHaveLegalFields : Obligations.LegalWordsHaveLegalFields := by
  intro cmd
  constructor
  · rintro ⟨i, hi⟩
    exact encode_of_decode hi ▸ encode_wellFormed i
  · intro h
    exact CmdFields.word_ofWord cmd ▸ decode_of_wellFormed h

end Sys2Proof
end

section
/-! SUPPORT. The number of legal words (spec/30_encoding.md R80): those of each row, bit by bit, summed over the opcode map, no
two rows of which share a word. -/

namespace Sys2Proof

/-- The values of bit `i` that the test of a row accepts (R79). -/
def Row.bitValues (r : Row) (i : Fin 32) : Finset Bool :=
  Finset.univ.filter fun b => (b && r.mask.getLsb i) = r.pattern.getLsb i

/-- The words whose every bit the test of a row accepts. -/
noncomputable def Row.words (r : Row) : List Cmd := (Fintype.piFinset r.bitValues).toList.map BitVec.ofFnLE

/-- A row matches a word exactly when its test accepts every bit. -/
theorem Row.matches_iff_bits {r : Row} {cmd : Cmd} :
    r.matches cmd = true ↔ ∀ i, cmd.getLsb i ∈ r.bitValues i := by
  rw [Row.matches_iff_masked]
  constructor
  · intro h i
    simp [Row.bitValues, ← h]
  · intro h
    ext i hi
    simpa [Row.bitValues] using h ⟨i, hi⟩

theorem Row.mem_words {r : Row} {cmd : Cmd} : cmd ∈ r.words ↔ r.matches cmd = true := by
  rw [Row.matches_iff_bits, Row.words, List.mem_map]
  constructor
  · rintro ⟨f, hf, rfl⟩ i
    rw [BitVec.getLsb_ofFnLE]
    exact Fintype.mem_piFinset.mp (Finset.mem_toList.mp hf) i
  · intro h
    refine ⟨cmd.getLsb, Finset.mem_toList.mpr (Fintype.mem_piFinset.mpr h), ?_⟩
    ext i hi
    simp

theorem Row.words_nodup (r : Row) : r.words.Nodup := by
  refine (Finset.nodup_toList _).map fun f g h => funext fun i => ?_
  rw [← BitVec.getLsb_ofFnLE f, h, BitVec.getLsb_ofFnLE]

theorem Row.length_words (r : Row) : r.words.length = ∏ i, (r.bitValues i).card := by
  rw [Row.words, List.length_map, Finset.length_toList, Fintype.card_piFinset]

/-- The legal words, row by row. -/
noncomputable def legalWords : List Cmd := opcodeMap.flatMap Row.words

theorem mem_legalWords {cmd : Cmd} : cmd ∈ legalWords ↔ ∃ i, decode cmd = .ok i := by
  simp [legalWords, decode_ok_iff, Row.mem_words]

theorem legalWords_nodup : legalWords.Nodup := by
  refine List.nodup_flatMap.mpr ⟨fun r _ => r.words_nodup, opcodeMap_not_both_match.imp fun h cmd ha hb => ?_⟩
  exact h cmd ⟨Row.mem_words.mp ha, Row.mem_words.mp hb⟩

theorem legalWords_length : legalWords.length = 314368 := by
  simp only [legalWords, List.length_flatMap, Row.length_words]
  decide

/-- Settles O5: a row's words are counted by the values its test leaves to each bit. -/
theorem legalWordCount : Obligations.LegalWordCount :=
  ⟨legalWords, legalWords_nodup, legalWords_length, fun _ => mem_legalWords⟩

end Sys2Proof
end

section
/-! SUPPORT. The assembler reads its own lines and the examples of spec/30_encoding.md R83. -/

namespace Sys2Proof.Asm

/-- R84: the mnemonic and the shape of the operands tell each command from every other. -/
theorem assemble_disassemble (i : Instr) : assemble (disassemble i) = some i := by
  cases i <;> rfl

/-- Settles O9: each example line is read to the word of its command. -/
theorem assemblerReadsItsLines : Obligations.AssemblerReadsItsLines :=
  ⟨assemble_disassemble, by decide, by decide, by decide, by decide⟩

end Sys2Proof.Asm
end

section
/-! SUPPORT. The bit-scan functions and commands (spec/40_bitscan.md): the counts by position and by halves (R101 to R107),
their laws (R120), and what the commands write (R100, R108 to R119). -/

namespace Sys2Proof.Machine

/-! ### The highest and the lowest set bit (R102 to R104) -/

section
variable {N v : Nat}

theorem exists_highest_bit (h0 : 0 < v) (hv : v < 2 ^ N) : ∃ h, h < N ∧ 2 ^ h ≤ v ∧ v < 2 ^ (h + 1) :=
  ⟨Nat.log 2 v, Nat.log_lt_of_lt_pow h0.ne' hv, Nat.pow_log_le_self 2 h0.ne', Nat.lt_pow_succ_log_self (by decide) v⟩

theorem exists_lowest_bit (h0 : 0 < v) : ∃ c, 2 ^ c ∣ v ∧ ¬ 2 ^ (c + 1) ∣ v := by
  obtain ⟨c, k, hk, rfl⟩ := Nat.exists_eq_pow_mul_and_not_dvd h0.ne' 2 (by decide)
  refine ⟨c, Nat.dvd_mul_right .., fun hc => hk ?_⟩
  rw [pow_succ] at hc
  exact Nat.dvd_of_mul_dvd_mul_left (by positivity) hc

theorem lt_of_two_pow_le {h : Nat} (hlo : 2 ^ h ≤ v) (hv : v < 2 ^ N) : h < N :=
  (Nat.pow_lt_pow_iff_right (by decide)).mp (hlo.trans_lt hv)

theorem lt_of_two_pow_dvd {c : Nat} (h0 : 0 < v) (hdvd : 2 ^ c ∣ v) (hv : v < 2 ^ N) : c < N :=
  lt_of_two_pow_le (Nat.le_of_dvd h0 hdvd) hv

/-- R120 (b): `ilog2_N(v)` brackets `v`. -/
theorem ilog2_spec (h0 : 0 < v) (hv : v < 2 ^ N) : 2 ^ ilog2 N v ≤ v ∧ v < 2 ^ (ilog2 N v + 1) := by
  obtain ⟨h, hN, hlo, hhi⟩ := exists_highest_bit h0 hv
  rw [ilog2_eq hlo hhi hN]
  exact ⟨hlo, hhi⟩

/-- R120 (c): `2^ctz_N(v)` is the exact power of two dividing `v`. -/
theorem ctz_spec (h0 : 0 < v) (hv : v < 2 ^ N) : 2 ^ ctz N v ∣ v ∧ ¬ 2 ^ (ctz N v + 1) ∣ v := by
  obtain ⟨c, hdvd, hnot⟩ := exists_lowest_bit h0
  rw [ctz_eq hdvd hnot (lt_of_two_pow_dvd h0 hdvd hv)]
  exact ⟨hdvd, hnot⟩

theorem ilog2_lt (h0 : 0 < v) (hv : v < 2 ^ N) : ilog2 N v < N := lt_of_two_pow_le (ilog2_spec h0 hv).1 hv

/-- `clz_N(v) = N - 1 - ilog2_N(v)` (R104). -/
theorem clz_eq_sub_ilog2 (h0 : 0 < v) (hv : v < 2 ^ N) : clz N v = N - 1 - ilog2 N v :=
  clz_eq (ilog2_spec h0 hv).1 (ilog2_spec h0 hv).2 (ilog2_lt h0 hv)

/-- R120 (d): the lowest set bit is not above the highest. -/
theorem ctz_le_ilog2 (h0 : 0 < v) (hv : v < 2 ^ N) : ctz N v ≤ ilog2 N v := by
  have hle : 2 ^ ctz N v ≤ v := Nat.le_of_dvd h0 (ctz_spec h0 hv).1
  exact Nat.le_of_lt_succ (lt_of_two_pow_le hle (ilog2_spec h0 hv).2)

/-- R120 (d): one position is both the lowest and the highest exactly when the value is a power of two. -/
theorem ctz_eq_ilog2_iff (h0 : 0 < v) (hv : v < 2 ^ N) : ctz N v = ilog2 N v ↔ ∃ j, v = 2 ^ j := by
  constructor
  · intro e
    obtain ⟨-, hhi⟩ := ilog2_spec h0 hv
    rw [← e, pow_succ'] at hhi
    exact ⟨ctz N v, Nat.eq_of_dvd_of_lt_two_mul h0.ne' (ctz_spec h0 hv).1 hhi⟩
  · rintro ⟨j, rfl⟩
    have hj : j < N := lt_of_two_pow_le le_rfl hv
    have hlt : 2 ^ j < 2 ^ (j + 1) := Nat.pow_lt_pow_succ (by decide)
    rw [ctz_eq dvd_rfl (Nat.not_dvd_of_pos_of_lt h0 hlt) hj, ilog2_eq le_rfl hlt hj]

end

/-! ### The number of set bits (R101) -/

/-- The positions below `N` at which `v` has a set bit. -/
def setBits (N v : Nat) : Finset Nat := (Finset.range N).filter fun j => v.testBit j

theorem mem_setBits {N v j : Nat} : j ∈ setBits N v ↔ j < N ∧ v.testBit j = true := by simp [setBits]

theorem popcount_eq_card (N v : Nat) : popcount N v = (setBits N v).card := by
  rw [popcount_eq, setBits, Finset.card_def, Finset.filter_val, ← Multiset.countP_eq_card_filter]
  simp [Finset.range, Multiset.range]

theorem popcount_add (m n v : Nat) : popcount (m + n) v = popcount m v + popcount n (v / 2 ^ m) := by
  induction n with
  | zero => rfl
  | succ n ih =>
    simp only [popcount] at ih ⊢
    rw [← Nat.add_assoc, setBitsBelow, ih, setBitsBelow, Nat.testBit_div_two_pow, Nat.add_assoc, Nat.add_comm m n]

theorem popcount_zero (N : Nat) : popcount N 0 = 0 := by simp [popcount_eq]

theorem popcount_mod (N v : Nat) : popcount N (v % 2 ^ N) = popcount N v := by
  rw [popcount_eq_card, popcount_eq_card]
  congr 1
  ext j
  simp +contextual [mem_setBits, Nat.testBit_mod_two_pow]

section
variable {N v : Nat}

theorem setBits_subset (h0 : 0 < v) (hv : v < 2 ^ N) : setBits N v ⊆ Finset.Icc (ctz N v) (ilog2 N v) := by
  intro j hj
  obtain ⟨-, hbit⟩ := mem_setBits.mp hj
  rw [Finset.mem_Icc]
  constructor
  · by_contra hlt
    obtain ⟨k, hk⟩ := (ctz_spec h0 hv).1
    rw [hk, Nat.testBit_two_pow_mul] at hbit
    simp [hlt] at hbit
  · exact Nat.le_of_lt_succ (lt_of_two_pow_le (Nat.ge_two_pow_of_testBit hbit) (ilog2_spec h0 hv).2)

theorem ilog2_mem_setBits (h0 : 0 < v) (hv : v < 2 ^ N) : ilog2 N v ∈ setBits N v := by
  obtain ⟨hlo, hhi⟩ := ilog2_spec h0 hv
  refine mem_setBits.mpr ⟨ilog2_lt h0 hv, ?_⟩
  have : v / 2 ^ ilog2 N v = 1 := Nat.div_eq_of_lt_le (by omega) (by rw [pow_succ] at hhi; omega)
  simp [Nat.testBit_eq_decide_div_mod_eq, this]

theorem ctz_mem_setBits (h0 : 0 < v) (hv : v < 2 ^ N) : ctz N v ∈ setBits N v := by
  obtain ⟨hdvd, hnot⟩ := ctz_spec h0 hv
  refine mem_setBits.mpr ⟨lt_of_two_pow_dvd h0 hdvd hv, ?_⟩
  rw [pow_succ, ← Nat.dvd_div_iff_mul_dvd hdvd] at hnot
  rw [Nat.testBit_eq_decide_div_mod_eq]
  simpa using hnot

/-- R120 (e): there is a set bit. -/
theorem popcount_pos (h0 : 0 < v) (hv : v < 2 ^ N) : 1 ≤ popcount N v := by
  rw [popcount_eq_card]
  exact Finset.card_pos.mpr ⟨_, ctz_mem_setBits h0 hv⟩

/-- R120 (e): the set bits lie between the lowest and the highest. -/
theorem popcount_le (h0 : 0 < v) (hv : v < 2 ^ N) : popcount N v ≤ ilog2 N v - ctz N v + 1 := by
  have hcard := Finset.card_le_card (setBits_subset h0 hv)
  have hle := ctz_le_ilog2 h0 hv
  rw [Nat.card_Icc] at hcard
  rw [popcount_eq_card]
  omega

/-- R120 (d): there is one set bit exactly when the lowest and the highest are the same. -/
theorem popcount_eq_one_iff (h0 : 0 < v) (hv : v < 2 ^ N) : popcount N v = 1 ↔ ctz N v = ilog2 N v := by
  constructor
  · intro h
    rw [popcount_eq_card] at h
    exact Finset.card_le_one.mp h.le _ (ctz_mem_setBits h0 hv) _ (ilog2_mem_setBits h0 hv)
  · intro e
    have := popcount_le h0 hv
    have := popcount_pos h0 hv
    omega

/-! ### Only `clz` depends on the width (R120 (f)) -/

theorem popcount_of_le {M : Nat} (hv : v < 2 ^ N) (hM : N ≤ M) : popcount M v = popcount N v := by
  obtain ⟨k, rfl⟩ := Nat.exists_eq_add_of_le hM
  rw [popcount_add, Nat.div_eq_of_lt hv, popcount_zero, Nat.add_zero]

theorem ctz_of_le {M : Nat} (h0 : 0 < v) (hv : v < 2 ^ N) (hM : N ≤ M) : ctz M v = ctz N v := by
  obtain ⟨hdvd, hnot⟩ := ctz_spec h0 hv
  exact ctz_eq hdvd hnot ((lt_of_two_pow_dvd h0 hdvd hv).trans_le hM)

theorem ilog2_of_le {M : Nat} (h0 : 0 < v) (hv : v < 2 ^ N) (hM : N ≤ M) : ilog2 M v = ilog2 N v := by
  obtain ⟨hlo, hhi⟩ := ilog2_spec h0 hv
  exact ilog2_eq hlo hhi ((ilog2_lt h0 hv).trans_le hM)

theorem clz_of_le {M : Nat} (h0 : 0 < v) (hv : v < 2 ^ N) (hM : N ≤ M) : clz M v = clz N v + (M - N) := by
  have := ilog2_lt h0 hv
  rw [clz_eq_sub_ilog2 h0 hv, clz_eq_sub_ilog2 h0 (hv.trans_le (Nat.pow_le_pow_right (by decide) hM)), ilog2_of_le h0 hv hM]
  omega

end

/-- Settles O39: each law is that of its function at any width. -/
theorem bitScanLaws : Obligations.BitScanLaws := by
  intro N _ v h0 hv
  have hsum : clz N v + ilog2 N v = N - 1 := by
    have := ilog2_lt h0 hv
    rw [clz_eq_sub_ilog2 h0 hv]
    omega
  have hpow : (∃ j, v = 2 ^ j) ↔ popcount N v = 1 :=
    (ctz_eq_ilog2_iff h0 hv).symm.trans (popcount_eq_one_iff h0 hv).symm
  exact ⟨hsum, ilog2_spec h0 hv, ctz_spec h0 hv, ⟨ctz_le_ilog2 h0 hv, ctz_eq_ilog2_iff h0 hv, hpow⟩,
    ⟨popcount_pos h0 hv, popcount_le h0 hv⟩, fun M _ hM =>
      ⟨popcount_of_le hv hM.le, ctz_of_le h0 hv hM.le, ilog2_of_le h0 hv hM.le, clz_of_le h0 hv hM.le⟩⟩

/-! ### The functions by halves (R105 to R107, R119) -/

section
variable {m n v : Nat}

/-- R106: a nonzero high part has the highest set bit. -/
theorem clz_add_of_high (hv : v < 2 ^ (m + n)) (hhi : v / 2 ^ m ≠ 0) : clz (m + n) v = clz n (v / 2 ^ m) := by
  have hdiv : v / 2 ^ m < 2 ^ n := Nat.div_lt_of_lt_mul (by rwa [← pow_add])
  obtain ⟨h, hn, hlo, hup⟩ := exists_highest_bit (Nat.pos_of_ne_zero hhi) hdiv
  have hlo' : 2 ^ (h + m) ≤ v := by
    rw [pow_add]
    exact (Nat.le_div_iff_mul_le (by positivity)).mp hlo
  have hup' : v < 2 ^ (h + m + 1) := by
    rw [Nat.add_right_comm, pow_add]
    exact (Nat.div_lt_iff_lt_mul (by positivity)).mp hup
  rw [clz_eq hlo hup hn, clz_eq hlo' hup' (by omega)]
  omega

/-- R107: a nonzero low part has the lowest set bit. -/
theorem ctz_add_of_low (n : Nat) (hlo : v % 2 ^ m ≠ 0) : ctz (m + n) v = ctz m (v % 2 ^ m) := by
  have hmod : v % 2 ^ m < 2 ^ m := Nat.mod_lt _ (by positivity)
  obtain ⟨c, hdvd, hnot⟩ := exists_lowest_bit (Nat.pos_of_ne_zero hlo)
  have hm : c < m := lt_of_two_pow_dvd (Nat.pos_of_ne_zero hlo) hdvd hmod
  rw [ctz_eq hdvd hnot hm]
  rw [Nat.dvd_mod_iff (pow_dvd_pow 2 hm.le)] at hdvd
  rw [Nat.dvd_mod_iff (pow_dvd_pow 2 hm)] at hnot
  exact ctz_eq hdvd hnot (by omega)

/-- R107: below a zero low part, the lowest set bit is that of the high part. -/
theorem ctz_add_of_high (h0 : 0 < v) (hv : v < 2 ^ (m + n)) (hlo : v % 2 ^ m = 0) :
    ctz (m + n) v = m + ctz n (v / 2 ^ m) := by
  obtain ⟨k, rfl⟩ := Nat.dvd_of_mod_eq_zero hlo
  rw [pow_add] at hv
  rw [Nat.mul_div_cancel_left k (by positivity)]
  obtain ⟨hdvd, hnot⟩ := ctz_spec (Nat.pos_of_mul_pos_left h0) (Nat.lt_of_mul_lt_mul_left hv)
  refine ctz_eq ?_ ?_ ?_
  · rw [pow_add]
    exact Nat.mul_dvd_mul_left _ hdvd
  · rw [Nat.add_assoc, pow_add]
    exact fun hc => hnot (Nat.dvd_of_mul_dvd_mul_left (by positivity) hc)
  · have := lt_of_two_pow_dvd (Nat.pos_of_mul_pos_left h0) hdvd (Nat.lt_of_mul_lt_mul_left hv)
    omega

end

section
variable {v : Nat}

theorem highHalf_eq (hv : v < 2 ^ 128) : highHalf v = v / 2 ^ 64 :=
  Nat.mod_eq_of_lt (Nat.div_lt_of_lt_mul (by rwa [← pow_add]))

theorem lowHalf_eq (v : Nat) : lowHalf v = v % 2 ^ 64 := rfl

/-- R105: the set bits are those of the two halves. -/
theorem popcount_by_halves (v : Nat) : popcount 128 v = popcount 64 (v / 2 ^ 64) + popcount 64 (v % 2 ^ 64) := by
  rw [popcount_mod, Nat.add_comm]
  exact popcount_add 64 64 v

/-- R106: the high half is looked at first. -/
theorem clz_by_halves (h0 : v ≠ 0) (hv : v < 2 ^ 128) :
    (v / 2 ^ 64 ≠ 0 → clz 128 v = clz 64 (v / 2 ^ 64)) ∧
    (v / 2 ^ 64 = 0 → v % 2 ^ 64 ≠ 0 ∧ clz 128 v = 64 + clz 64 (v % 2 ^ 64)) := by
  refine ⟨clz_add_of_high (m := 64) (n := 64) hv, fun hhi => ?_⟩
  have hlt : v < 2 ^ 64 := by omega
  rw [Nat.mod_eq_of_lt hlt, Nat.add_comm]
  exact ⟨h0, clz_of_le (Nat.pos_of_ne_zero h0) hlt (by decide)⟩

/-- R107: the low half is looked at first. -/
theorem ctz_by_halves (h0 : v ≠ 0) (hv : v < 2 ^ 128) :
    (v % 2 ^ 64 ≠ 0 → ctz 128 v = ctz 64 (v % 2 ^ 64)) ∧
    (v % 2 ^ 64 = 0 → v / 2 ^ 64 ≠ 0 ∧ ctz 128 v = 64 + ctz 64 (v / 2 ^ 64)) :=
  ⟨ctz_add_of_low (m := 64) 64, fun hlo =>
    ⟨by omega, ctz_add_of_high (m := 64) (n := 64) (Nat.pos_of_ne_zero h0) hv hlo⟩⟩

theorem popcount128_eq (hv : v < 2 ^ 128) : popcount128 v = popcount 128 v := by
  rw [popcount128, highHalf_eq hv, lowHalf_eq, popcount_by_halves]

theorem clz128_eq (h0 : v ≠ 0) (hv : v < 2 ^ 128) : clz128 v = clz 128 v := by
  obtain ⟨high, low⟩ := clz_by_halves h0 hv
  rw [clz128, highHalf_eq hv, lowHalf_eq]
  split
  · exact (high ‹_›).symm
  · exact (low (by omega)).2.symm

theorem ctz128_eq (h0 : v ≠ 0) (hv : v < 2 ^ 128) : ctz128 v = ctz 128 v := by
  obtain ⟨low, high⟩ := ctz_by_halves h0 hv
  rw [ctz128, highHalf_eq hv, lowHalf_eq]
  split
  · exact (low ‹_›).symm
  · exact (high (by omega)).2.symm

theorem ilog2_128_eq (h0 : v ≠ 0) (hv : v < 2 ^ 128) : ilog2_128 v = ilog2 128 v := by
  rw [ilog2_128, clz128_eq h0 hv, ilog2]

end

/-- Settles O38: a value's set bits are those of its two halves. -/
theorem doubleWidthByHalves : Obligations.DoubleWidthByHalves := by
  intro v hv hi lo
  refine ⟨popcount_by_halves v, popcount128_eq hv, fun h0 => ?_, fun h0 => ?_⟩
  · exact ⟨(clz_by_halves h0 hv).1, (clz_by_halves h0 hv).2, clz128_eq h0 hv⟩
  · exact ⟨(ctz_by_halves h0 hv).1, (ctz_by_halves h0 hv).2, ctz128_eq h0 hv⟩

/-! ### The commands (R100, R108 to R119) -/

section
variable {s : State} {rd rs : RegIdx}

/-- R100: a bit-scan command whose operand is in range, and not zero where that is asked, writes its function's value. -/
theorem next_scan_eq {N r : Nat} {F : Nat → Nat} {z : Bool} (hN : s.operand rs < 2 ^ N)
    (hz : z = true → s.operand rs ≠ 0) (hF : F (s.operand rs) = r) (cmd : Cmd) :
    (.next (scan N F z cmd rd rs s) : Host.Outcome State Fault Refusal) = .next (s.writeReg rd (BitVec.ofNat 128 r)) := by
  rw [scan_result hN hz, hF, writeResult_eq]

/-- The commands of one function at the three widths write its value, where the double-width form agrees with it. -/
theorem next_scans_eq {F : Nat → Nat → Nat} {F128 r : Nat → Nat} {z : Bool} (hz : z = true → s.operand rs ≠ 0)
    (hF : ∀ N, s.operand rs < 2 ^ N → F N (s.operand rs) = r N)
    (h128 : F128 (s.operand rs) = F 128 (s.operand rs)) (cmd32 cmd64 cmd128 : Cmd) :
    let gives (N : Nat) : Host.Outcome State Fault Refusal := .next (s.writeReg rd (BitVec.ofNat 128 (r N)))
    (s.operand rs < 2 ^ 32 → .next (scan 32 (F 32) z cmd32 rd rs s) = gives 32) ∧
    (s.operand rs < 2 ^ 64 → .next (scan 64 (F 64) z cmd64 rd rs s) = gives 64) ∧
    .next (scan 128 F128 z cmd128 rd rs s) = gives 128 :=
  have hlt := operand_lt s rs
  ⟨fun h => next_scan_eq h hz (hF 32 h) _, fun h => next_scan_eq h hz (hF 64 h) _,
    next_scan_eq hlt hz (h128.trans (hF 128 hlt)) _⟩

/-- R18, R100, R191: what a violation of a bit-scan command answers on each build. -/
theorem exec_of_scan_violated {i : Instr} {cause : Cause}
    (h : exec i s = .next (violate cause (encode i) (drawReg 32 rd) s)) :
    (s.checked = true → exec i s = .next { s with status := statusOf cause, fcmd := encode i }) ∧
    (s.checked = false → exec i s = .next { s with
      x := s.x.set rd.val ((Config.unspec 32 s.draws).setWidth 128) rd.isLt, draws := s.draws + 1 }) := by
  constructor <;> intro hc
  · rw [h, violate_checked s hc, raise]
  · rw [h, violate_unchecked s hc, drawReg_eq, State.writeReg]

end

/-- Settles O33: the count by positions is that of the list, at 128 bits by halves. -/
theorem popcountCounts : Obligations.PopcountCounts := by
  intro s rd rs v count
  have h128 : popcount128 v = popcount 128 v := popcount128_eq (operand_lt s rs)
  exact next_scans_eq (z := false) nofun (fun N _ => popcount_eq N v) h128 _ _ _

/-- Settles O34: the operand's bracket gives its highest set bit at each width. -/
theorem clzCounts : Obligations.ClzCounts := by
  intro s rd rs h v gives hlo hhi
  have h0 : v ≠ 0 := (Nat.two_pow_pos h |>.trans_le hlo).ne'
  have clz_at (N : Nat) (hv : v < 2 ^ N) : clz N v = N - 1 - h := clz_eq hlo hhi (lt_of_two_pow_le hlo hv)
  exact next_scans_eq (fun _ => h0) clz_at (clz128_eq h0 (operand_lt s rs)) _ _ _

/-- Settles O35: the operand's exact power of two gives its lowest set bit at each width. -/
theorem ctzCounts : Obligations.CtzCounts := by
  intro s rd rs h v gives hdvd hnot
  have h0 : v ≠ 0 := fun e => hnot (e ▸ Nat.dvd_zero _)
  have ctz_at (N : Nat) (hv : v < 2 ^ N) : ctz N v = h :=
    ctz_eq hdvd hnot (lt_of_two_pow_dvd (Nat.pos_of_ne_zero h0) hdvd hv)
  exact next_scans_eq (fun _ => h0) ctz_at (ctz128_eq h0 (operand_lt s rs)) _ _ _

/-- Settles O36: the operand's bracket gives its logarithm at each width. -/
theorem ilog2IsFloorLog : Obligations.Ilog2IsFloorLog := by
  intro s rd rs h v gives hlo hhi
  have h0 : v ≠ 0 := (Nat.two_pow_pos h |>.trans_le hlo).ne'
  have ilog2_at (N : Nat) (hv : v < 2 ^ N) : ilog2 N v = h := ilog2_eq hlo hhi (lt_of_two_pow_le hlo hv)
  exact next_scans_eq (fun _ => h0) ilog2_at (ilog2_128_eq h0 (operand_lt s rs)) _ _ _

/-- Settles O37: each listed command is a scan of its width, so its violation is that of the template. -/
theorem scanViolations : Obligations.ScanViolations := by
  intro s rd rs outcome
  have range {i : Instr} {N : Nat} {F : Nat → Nat} {z : Bool} (h : 2 ^ N ≤ s.operand rs)
      (hi : exec i s = .next (scan N F z (encode i) rd rs s)) : outcome i (statusOf .operandRange) :=
    exec_of_scan_violated (hi.trans (congrArg _ (scan_range h ..)))
  have zero {i : Instr} {N : Nat} {F : Nat → Nat} (h : s.operand rs = 0)
      (hi : exec i s = .next (scan N F true (encode i) rd rs s)) : outcome i (statusOf .zeroInput) :=
    exec_of_scan_violated (hi.trans (congrArg _ (scan_zero h ..)))
  refine ⟨fun h => ?_, fun h => ?_, fun h => ?_⟩ <;> simp only [List.forall_mem_cons]
  · exact ⟨range h rfl, range h rfl, range h rfl, range h rfl, nofun⟩
  · exact ⟨range h rfl, range h rfl, range h rfl, range h rfl, nofun⟩
  · exact ⟨zero h rfl, zero h rfl, zero h rfl, zero h rfl, zero h rfl, zero h rfl, zero h rfl, zero h rfl, zero h rfl, nofun⟩

end Sys2Proof.Machine
end

section
/-! SUPPORT. Fast Division (spec/41_fastdiv.md): the bounds on the constants a slot holds (R133), when its quotient is exact
(R139, R143), and what its commands answer (R134 to R149). -/

namespace Sys2Proof.Machine

/-! ### The constants of a divisor above 1 (R133): `h` is the position of the highest set bit of `m - 1` -/

section
variable {W h m mul : Nat}

theorem two_pow_shamt_eq (hW : 0 < W) (h : Nat) : 2 ^ (h + W) = 2 ^ (W - 1) * 2 ^ (h + 1) := by
  rw [← pow_add]
  congr 1
  omega

/-- R133 (c): the multiplier has its top bit set. -/
theorem two_pow_half_le_mul (hW : 0 < W) (hhi : m - 1 < 2 ^ (h + 1)) (hm : 0 < m) (hceil : 2 ^ (h + W) ≤ mul * m) :
    2 ^ (W - 1) ≤ mul := by
  refine Nat.le_of_mul_le_mul_right (c := m) ?_ hm
  calc 2 ^ (W - 1) * m ≤ 2 ^ (W - 1) * 2 ^ (h + 1) := Nat.mul_le_mul_left _ (by omega)
    _ = 2 ^ (h + W) := (two_pow_shamt_eq hW h).symm
    _ ≤ mul * m := hceil

/-- R139 (c): an error below the divisor is small against the shifted range of the dividends up to `2^(W-1)`. -/
theorem two_pow_half_mul_lt {e : Nat} (hW : 0 < W) (hhi : m - 1 < 2 ^ (h + 1)) (he : e < m) :
    2 ^ (W - 1) * e < 2 ^ (h + W) := by
  rw [two_pow_shamt_eq hW]
  exact Nat.mul_lt_mul_of_pos_left (by omega) (by positivity)

/-- R133 (d): the only power of two with that highest set bit is `2^(h+1)`. -/
theorem exponent_eq_of_bracket {j : Nat} (hlo : 2 ^ h ≤ 2 ^ j - 1) (hhi : 2 ^ j - 1 < 2 ^ (h + 1)) : j = h + 1 := by
  have hpos := Nat.two_pow_pos j
  have hlt : h < j := (Nat.pow_lt_pow_iff_right (a := 2) (by decide)).mp (by omega)
  have hle : j ≤ h + 1 := (Nat.pow_le_pow_iff_right (a := 2) (by decide)).mp (by omega)
  omega

/-- R133 (d): the multiplier of a power of two. -/
theorem mul_eq_two_pow_half (hW : 0 < W) (hm : m = 2 ^ (h + 1)) (hceil : 2 ^ (h + W) ≤ mul * m)
    (hceil' : mul * m < 2 ^ (h + W) + m) : mul = 2 ^ (W - 1) := by
  have hpos : 0 < m := hm ▸ Nat.two_pow_pos _
  rw [two_pow_shamt_eq hW, ← hm] at hceil hceil'
  rw [← Nat.succ_mul] at hceil'
  exact Nat.le_antisymm (Nat.le_of_lt_succ (Nat.lt_of_mul_lt_mul_right hceil')) (Nat.le_of_mul_le_mul_right hceil hpos)

/-- R133 (d): the error is 0 exactly for the powers of two. -/
theorem mul_mul_eq_two_pow_iff (hW : 0 < W) (hlo : 2 ^ h ≤ m - 1) (hhi : m - 1 < 2 ^ (h + 1))
    (hceil : 2 ^ (h + W) ≤ mul * m) (hceil' : mul * m < 2 ^ (h + W) + m) :
    mul * m = 2 ^ (h + W) ↔ ∃ j, m = 2 ^ j := by
  constructor
  · intro e
    obtain ⟨j, -, hj⟩ := (Nat.dvd_prime_pow Nat.prime_two).mp (Dvd.intro_left mul e)
    exact ⟨j, hj⟩
  · rintro ⟨j, rfl⟩
    obtain rfl := exponent_eq_of_bracket hlo hhi
    rw [mul_eq_two_pow_half hW rfl hceil hceil', two_pow_shamt_eq hW]

end

/-- Settles O43: `L - 1` is the position of the highest set bit of `m - 1`, and the multiplier is a ceiling. -/
theorem fdConstantBounds : Obligations.FdConstantBounds := by
  intro W hWmem
  obtain ⟨hW, hW64⟩ : 0 < W ∧ W ≤ 64 := by
    simp only [List.mem_cons, List.not_mem_nil, or_false] at hWmem
    omega
  refine ⟨rfl, fun m L hm hmW hL hlo hhi => ?_⟩
  obtain ⟨h, rfl⟩ := Nat.exists_eq_add_of_le' hL
  rw [Nat.add_sub_cancel] at hlo
  have hlo' : 2 ^ h ≤ m - 1 := by omega
  have hhi' : m - 1 < 2 ^ (h + 1) := by omega
  have hlt : h < W := lt_of_two_pow_le hlo.le hmW
  obtain ⟨hceil, hceil'⟩ := ceil_bounds (2 ^ (h + W)) (m := m) (by omega)
  have hmul := ceil_lt_two_pow hm hmW hlo'
  have hshamt : 2 ^ (h + W) ≤ 2 ^ (2 * W - 1) := Nat.pow_le_pow_right (by decide) (by omega)
  have hdouble : 2 ^ (2 * W) = 2 ^ (2 * W - 1) + 2 ^ (2 * W - 1) := by rw [← Nat.two_pow_pred_add_two_pow_pred (by omega)]
  have hword : 2 ^ W ≤ 2 ^ (2 * W - 1) := Nat.pow_le_pow_right (by decide) (by omega)
  rw [fdConstruct_of_bracket hm hlt hlo' hhi', ilog2_eq hlo' hhi' hlt]
  dsimp only
  refine ⟨rfl, hlt, by omega, by omega, by omega, by omega, by omega, by omega, ?_, by omega, hceil, by omega, ?_, ?_⟩
  · exact two_pow_half_le_mul hW hhi' (by omega) hceil
  · exact mul_mul_eq_two_pow_iff hW hlo' hhi' hceil hceil'
  · rintro ⟨j, rfl⟩
    obtain rfl := exponent_eq_of_bracket hlo' hhi'
    exact ⟨rfl, mul_eq_two_pow_half hW rfl hceil hceil'⟩

/-! ### The quotient by a multiplier `mul` with `mul * m = S + e` (R139) -/

section
variable {S mul m e : Nat} (hS : 0 < S) (hm : 0 < m) (he : mul * m = S + e)
include he

/-- R139: what the error and the remainder add to the product, multiplied by the divisor. -/
theorem excess_mul (a : Nat) : (a / m * e + a % m * mul) * m = a * e + a % m * S := by
  calc (a / m * e + a % m * mul) * m = a / m * m * e + a % m * (mul * m) := by ring
    _ = (a / m * m + a % m) * e + a % m * S := by rw [he]; ring
    _ = a * e + a % m * S := by rw [Nat.div_add_mod']

include hS in
/-- R139 (a). -/
theorem mul_div_eq_add (a : Nat) : a * mul / S = a / m + (a / m * e + a % m * mul) / S := by
  have hsplit : a * mul = a / m * e + a % m * mul + a / m * S := by
    calc a * mul = (a / m * m + a % m) * mul := by rw [Nat.div_add_mod']
      _ = a / m * (mul * m) + a % m * mul := by ring
      _ = a / m * e + a % m * mul + a / m * S := by rw [he]; ring
  rw [hsplit, Nat.add_mul_div_right _ _ hS, Nat.add_comm]

include hm in
/-- R139 (b): the excess does not reach `S`. -/
theorem excess_lt_iff (a : Nat) : a / m * e + a % m * mul < S ↔ a * e < (m - a % m) * S := by
  have hr : a % m * S ≤ m * S := Nat.mul_le_mul_right S (Nat.mod_lt a hm).le
  rw [← Nat.mul_lt_mul_right hm, excess_mul he, Nat.sub_mul, Nat.mul_comm S m]
  omega

include hm in
/-- R139 (a): the quotient is at most one too large. -/
theorem excess_lt_two_mul {a : Nat} (hae : a * e < 2 * S) : a / m * e + a % m * mul < 2 * S := by
  rw [← Nat.mul_lt_mul_right hm, excess_mul he]
  have hr : a % m * S + S ≤ m * S := by
    rw [← Nat.succ_mul]
    exact Nat.mul_le_mul_right S (Nat.mod_lt a hm)
  have hSm : S ≤ m * S := Nat.le_mul_of_pos_left S hm
  have htwice : 2 * S * m = m * S + m * S := by ring
  omega

end

/-! ### The quotient and the remainder of any slot (R136, R141) -/

/-- `e = mul * m - 2^shamt`, the error of a slot's constants (R133 (d), R139). -/
def FdSlot.error (d : FdSlot) : Nat := d.mul.toNat * d.m.toNat - 2 ^ d.shamt.toNat

theorem bits_pos (w : WordWidth) : 0 < w.bits := by cases w <;> decide

namespace FdSlot

section
variable {d : FdSlot} {a r : Nat}

/-- R136: the low `W` bits of the shifted product. -/
theorem quotient_eq_mod (d : FdSlot) (a : Nat) :
    d.quotient a = a * d.mul.toNat / 2 ^ d.shamt.toNat % 2 ^ d.w.bits := by
  rw [FdSlot.quotient, fdDiv, Nat.shiftRight_eq_div_pow]

theorem remainder_lt (d : FdSlot) (a : Nat) : d.remainder a < 2 ^ d.w.bits := by
  rw [FdSlot.remainder, fdMod_eq_word]
  exact BitVec.isLt _

/-- R141: the remainder differs from `a - q * m` by a multiple of `2^W`. -/
theorem remainder_dvd (d : FdSlot) (a : Nat) : (2 ^ d.w.bits : Int) ∣ a - d.quotient a * d.m.toNat - d.remainder a := by
  rw [FdSlot.remainder, fdMod, Int.toNat_of_nonneg (Int.emod_nonneg _ (by positivity))]
  exact Int.dvd_self_sub_emod

/-- R141: and it is the only such value below `2^W`. -/
theorem remainder_eq (hr : r < 2 ^ d.w.bits) (h : (2 ^ d.w.bits : Int) ∣ a - d.quotient a * d.m.toNat - r) :
    d.remainder a = r := by
  have hmod : (d.remainder a : Int) ≡ r [ZMOD (2 ^ d.w.bits : Nat)] := by
    push_cast
    exact (Int.modEq_iff_dvd.mpr (d.remainder_dvd a)).trans (Int.modEq_iff_dvd.mpr h).symm
  exact (Int.natCast_modEq_iff.mp hmod).eq_of_lt_of_lt (d.remainder_lt a) hr

/-- R143: an exact quotient leaves the true remainder. -/
theorem remainder_of_exact (ha : a < 2 ^ d.w.bits) (hq : d.quotient a = a / d.m.toNat) :
    d.remainder a = a % d.m.toNat := by
  refine remainder_eq ((Nat.mod_le ..).trans_lt ha) ?_
  have hdm : ((a / d.m.toNat : Nat) : Int) * d.m.toNat + (a % d.m.toNat : Nat) = a := by exact_mod_cast Nat.div_add_mod' a _
  rw [hq, ← hdm]
  ring_nf
  exact dvd_zero _

end

end FdSlot

/-! ### The quotient of a slot built without violation (R139, R143) -/

namespace FdSlot.Valid

section
variable {d : FdSlot} (hv : d.Valid) {a : Nat}
include hv

theorem mul_mul_eq : d.mul.toNat * d.m.toNat = 2 ^ d.shamt.toNat + d.error :=
  (Nat.add_sub_of_le hv.ceiling.1).symm

theorem error_lt : d.error < d.m.toNat := by
  have hceil := hv.ceiling.2
  rw [hv.mul_mul_eq] at hceil
  omega

/-- R133: the divisor 1 has error 0, and every other a highest set bit of `m - 1`. -/
theorem one_or_bracket : d.m.toNat = 1 ∧ d.error = 0 ∨
    ∃ h, d.shamt.toNat = h + d.w.bits ∧ 2 ^ h ≤ d.m.toNat - 1 ∧ d.m.toNat - 1 < 2 ^ (h + 1) := by
  have hpos := hv.divisor_pos
  have herr := hv.error_lt
  obtain hm | hm : d.m.toNat = 1 ∨ 1 < d.m.toNat := by omega
  · exact .inl ⟨hm, by omega⟩
  · exact .inr (hv.shift hm)

/-- R139 (c). -/
theorem half_mul_error_lt : 2 ^ (d.w.bits - 1) * d.error < 2 ^ d.shamt.toNat := by
  rcases hv.one_or_bracket with ⟨-, h0⟩ | ⟨h, hshamt, -, hhi⟩
  · rw [h0]
    exact Nat.two_pow_pos _
  · rw [hshamt]
    exact two_pow_half_mul_lt (bits_pos d.w) hhi hv.error_lt

/-- R139 (a): the error of no dividend reaches twice the shifted range. -/
theorem mul_error_lt_two_mul (ha : a < 2 ^ d.w.bits) : a * d.error < 2 * 2 ^ d.shamt.toNat := by
  have htwice : 2 ^ d.w.bits = 2 * 2 ^ (d.w.bits - 1) := (mul_pow_sub_one (bits_pos d.w).ne' 2).symm
  calc a * d.error ≤ 2 ^ d.w.bits * d.error := Nat.mul_le_mul_right _ ha.le
    _ = 2 * (2 ^ (d.w.bits - 1) * d.error) := by rw [htwice, Nat.mul_assoc]
    _ < 2 * 2 ^ d.shamt.toNat := Nat.mul_lt_mul_of_pos_left hv.half_mul_error_lt (by decide)

theorem mul_le_two_pow_shamt : d.mul.toNat ≤ 2 ^ d.shamt.toNat := by
  by_contra hlt
  have hle : (2 ^ d.shamt.toNat + 1) * d.m.toNat ≤ d.mul.toNat * d.m.toNat := Nat.mul_le_mul_right _ (by omega)
  have hS : 2 ^ d.shamt.toNat ≤ 2 ^ d.shamt.toNat * d.m.toNat := Nat.le_mul_of_pos_right _ hv.divisor_pos
  have hceil := hv.ceiling.2
  rw [Nat.succ_mul] at hle
  omega

/-- R136: the reduction to `W` bits never changes the quotient. -/
theorem quotient_eq_div (ha : a < 2 ^ d.w.bits) : d.quotient a = a * d.mul.toNat / 2 ^ d.shamt.toNat := by
  have hle : a * d.mul.toNat / 2 ^ d.shamt.toNat ≤ a := by
    refine Nat.div_le_of_le_mul ?_
    rw [Nat.mul_comm]
    exact Nat.mul_le_mul_right a hv.mul_le_two_pow_shamt
  rw [d.quotient_eq_mod, Nat.mod_eq_of_lt (hle.trans_lt ha)]

/-- R139 (a): the quotient by the error. -/
theorem quotient_eq_add (ha : a < 2 ^ d.w.bits) : d.quotient a = a / d.m.toNat +
    (a / d.m.toNat * d.error + a % d.m.toNat * d.mul.toNat) / 2 ^ d.shamt.toNat := by
  rw [hv.quotient_eq_div ha, mul_div_eq_add (Nat.two_pow_pos _) hv.mul_mul_eq]

/-- R139 (b): when the quotient is exact. -/
theorem quotient_exact_iff (ha : a < 2 ^ d.w.bits) :
    d.quotient a = a / d.m.toNat ↔ a * d.error < (d.m.toNat - a % d.m.toNat) * 2 ^ d.shamt.toNat := by
  rw [hv.quotient_eq_add ha, Nat.add_eq_left, Nat.div_eq_zero_iff_lt (Nat.two_pow_pos _),
    excess_lt_iff hv.divisor_pos hv.mul_mul_eq]

/-- R139 (a): the quotient is exact or one too large. -/
theorem quotient_eq_or (ha : a < 2 ^ d.w.bits) :
    d.quotient a = a / d.m.toNat ∨ d.quotient a = a / d.m.toNat + 1 := by
  have hlt := excess_lt_two_mul hv.divisor_pos hv.mul_mul_eq (hv.mul_error_lt_two_mul ha)
  have hdiv := (Nat.div_lt_iff_lt_mul (Nat.two_pow_pos _)).mpr hlt
  rw [hv.quotient_eq_add ha]
  rcases Nat.le_one_iff_eq_zero_or_eq_one.mp (Nat.le_of_lt_succ hdiv) with e | e <;> simp [e]

/-- R139 (b): a small enough error makes the quotient exact whatever the remainder is. -/
theorem quotient_exact (ha : a < 2 ^ d.w.bits) (hae : a * d.error < 2 ^ d.shamt.toNat) :
    d.quotient a = a / d.m.toNat := by
  have hr := Nat.mod_lt a hv.divisor_pos
  exact (hv.quotient_exact_iff ha).mpr (hae.trans_le (Nat.le_mul_of_pos_left _ (by omega)))

/-- R143: a quotient one too large leaves the remainder less the divisor, wrapped. -/
theorem remainder_of_succ (hq : d.quotient a = a / d.m.toNat + 1) :
    d.remainder a = 2 ^ d.w.bits - (d.m.toNat - a % d.m.toNat) := by
  have hr := Nat.mod_lt a hv.divisor_pos
  have hm := hv.divisor_lt
  refine FdSlot.remainder_eq (by omega) ⟨-1, ?_⟩
  have hdm : ((a / d.m.toNat : Nat) : Int) * d.m.toNat + (a % d.m.toNat : Nat) = a := by exact_mod_cast Nat.div_add_mod' a _
  rw [hq, ← hdm, Nat.cast_sub (by omega), Nat.cast_sub hr.le]
  push_cast
  ring

/-- R139 (e): below a dividend with the greatest remainder, `m - 1`, every quotient is exact when that of the dividend `m` less
is: the others with this remainder are no greater, and a smaller remainder leaves room for the error. -/
theorem quotient_exact_below (ha : a < 2 ^ d.w.bits) (hr : a % d.m.toNat + 1 = d.m.toNat)
    (hae : (a - d.m.toNat) * d.error < 2 ^ d.shamt.toNat) {b : Nat} (hb : b < a) : d.quotient b = b / d.m.toNat := by
  have hbW : b < 2 ^ d.w.bits := hb.trans ha
  have hbr := Nat.mod_lt b hv.divisor_pos
  obtain heq | hne := eq_or_ne (b % d.m.toNat) (a % d.m.toNat)
  · have hle : b + d.m.toNat ≤ a := Nat.ModEq.add_le_of_lt heq hb
    exact hv.quotient_exact hbW ((Nat.mul_le_mul_right _ (by omega)).trans_lt hae)
  · refine (hv.quotient_exact_iff hbW).mpr ((hv.mul_error_lt_two_mul hbW).trans_le (Nat.mul_le_mul_right _ ?_))
    omega

end

end FdSlot.Valid

theorem fdInstance_exact_below {w : WordWidth} {m a : Nat} (h0 : 0 < m) (hw : m < 2 ^ w.bits) (ha : a < 2 ^ w.bits)
    (hr : a % m + 1 = m) (hae : (a - m) * (fdInstance w m).error < 2 ^ (fdInstance w m).shamt.toNat) (b : Nat) (hb : b < a) :
    (fdInstance w m).quotient b = b / m := by
  have hexact := (fdInstance_valid h0 hw).quotient_exact_below (a := a) (b := b)
  rw [fdInstance_m hw] at hexact
  exact hexact ha hr hae hb

/-- Settles O47: each of the three dividends leaves the remainder `m - 1`, and the dividend `m` less is exact. -/
theorem smallestInexactDividends : Obligations.SmallestInexactDividends := by
  simp only [Obligations.SmallestInexactDividends, List.forall_mem_cons]
  refine ⟨⟨by decide, by decide, fdInstance_exact_below ?_ ?_ ?_ ?_ ?_⟩,
    ⟨by decide, by decide, fdInstance_exact_below ?_ ?_ ?_ ?_ ?_⟩,
    ⟨by decide, by decide, fdInstance_exact_below ?_ ?_ ?_ ?_ ?_⟩, nofun⟩
  all_goals decide

/-! ### The commands (R134 to R149) -/

section
variable {s : State} {rs : RegIdx} {c : SlotIdx} {d : FdSlot} (hd : s.readFd c = some d) (ha : s.operand rs < 2 ^ d.w.bits)
include hd ha

/-- R137: on a full slot and a dividend in range `FDDIV` writes the slot's quotient. -/
theorem exec_fddiv_eq (rd : RegIdx) :
    exec (.fddiv rd rs c) s = .next (s.writeReg rd (BitVec.ofNat 128 (d.quotient (s.operand rs)))) := by
  rw [exec, execFddiv, hd, query_result ha, writeResult_eq]

/-- R142: and `FDMOD` its remainder. -/
theorem exec_fdmod_eq (rd : RegIdx) :
    exec (.fdmod rd rs c) s = .next (s.writeReg rd (BitVec.ofNat 128 (d.remainder (s.operand rs)))) := by
  rw [exec, execFdmod, hd, query_result ha, writeResult_eq]

/-- R139 (b), R143: both commands are exact for a dividend whose product with the error is below `2^shamt`. -/
theorem exec_exact (hv : d.Valid) (hae : s.operand rs * d.error < 2 ^ d.shamt.toNat) (rd : RegIdx) :
    exec (.fddiv rd rs c) s = .next (s.writeReg rd (BitVec.ofNat 128 (s.operand rs / d.m.toNat))) ∧
    exec (.fdmod rd rs c) s = .next (s.writeReg rd (BitVec.ofNat 128 (s.operand rs % d.m.toNat))) := by
  have hq := hv.quotient_exact ha hae
  rw [exec_fddiv_eq hd ha, exec_fdmod_eq hd ha, FdSlot.remainder_of_exact ha hq, hq]
  exact ⟨rfl, rfl⟩

end

/-- Settles O42: the quotient is that of the full product, and the remainder is reduced modulo `2^W`. -/
theorem fdQueriesCompute : Obligations.FdQueriesCompute := by
  intro s rd rs c d hd a ha q
  have hq : d.quotient a = q := d.quotient_eq_mod a
  rw [← hq]
  exact ⟨exec_fddiv_eq hd ha rd, d.remainder a, d.remainder_lt a, d.remainder_dvd a, exec_fdmod_eq hd ha rd⟩

/-- Settles O44: up to `2^(W-1)` the error of no divisor shows. -/
theorem fddivExactUpToHalfRange : Obligations.FddivExactUpToHalfRange := by
  intro s rd rs c d hd hv a ha
  have haW : a < 2 ^ d.w.bits := ha.trans_lt (Nat.pow_lt_pow_right (by decide) (Nat.pred_lt (bits_pos d.w).ne'))
  exact exec_exact hd haW hv ((Nat.mul_le_mul_right _ ha).trans_lt hv.half_mul_error_lt) rd

/-- Settles O45: an error of at most `2^(L-1)` does not show in `W` bits. -/
theorem fddivExactForSmallError : Obligations.FddivExactForSmallError := by
  intro s rd rs c d hd hv (he : d.error ≤ _) a ha
  refine exec_exact hd ha hv ?_ rd
  change a * d.error < 2 ^ d.shamt.toNat
  rcases hv.one_or_bracket with ⟨-, h0⟩ | ⟨h, hshamt, -, -⟩
  · rw [h0]
    exact Nat.two_pow_pos _
  · rw [hshamt, Nat.add_sub_cancel] at he
    calc a * d.error ≤ a * 2 ^ h := Nat.mul_le_mul_left a he
      _ < 2 ^ d.w.bits * 2 ^ h := Nat.mul_lt_mul_of_pos_right ha (Nat.two_pow_pos h)
      _ = 2 ^ d.shamt.toNat := by rw [hshamt, pow_add, Nat.mul_comm]

/-- Settles O46: the written quotient is the exact one or one too large, and the remainder wraps with it. -/
theorem quotientIsExactOrOneTooLarge : Obligations.QuotientIsExactOrOneTooLarge := by
  intro s rd rs c d hd hv a m mul S q r e q' ha
  have hq : d.quotient a = q' := hv.quotient_eq_add ha
  rw [← hq]
  refine ⟨exec_fddiv_eq hd ha rd, hv.quotient_eq_or ha, hv.quotient_exact_iff ha, fun hexact => ?_, fun hsucc => ?_⟩
  · have hr : d.remainder a = r := FdSlot.remainder_of_exact ha hexact
    exact hr ▸ exec_fdmod_eq hd ha rd
  · have hr : d.remainder a = 2 ^ d.w.bits - (m - r) := hv.remainder_of_succ hsucc
    exact hr ▸ exec_fdmod_eq hd ha rd

/-- R148: the constants of 1 are valid and their error, below the divisor, is 0. -/
theorem exec_identity {w : WordWidth} {s : State} {rs : RegIdx} {c : SlotIdx} (hd : s.readFd c = some (fdInstance w 1))
    (ha : s.operand rs < 2 ^ w.bits) (rd : RegIdx) :
    exec (.fddiv rd rs c) s = .next (s.writeReg rd (s.readReg rs)) ∧ exec (.fdmod rd rs c) s = .next (s.writeReg rd 0) := by
  have hv := fdInstance_one_valid w
  have hm : (fdInstance w 1).m.toNat = 1 := rfl
  have h0 : (fdInstance w 1).error = 0 := Nat.lt_one_iff.mp hv.error_lt
  have hexact := exec_exact hd ha hv (by rw [h0]; exact Nat.two_pow_pos _) rd
  rwa [hm, Nat.div_one, Nat.mod_one, State.operand, BitVec.ofNat_toNat, BitVec.setWidth_eq] at hexact

/-- Settles O48: either construction stores the constants of 1, which give the identity wherever it is held. -/
theorem identityDivisor : Obligations.IdentityDivisor := by
  intro s rs c h1
  have hop : s.operand rs = 1 := h1
  have stores (w : WordWidth) {i : Instr} (hi : exec i s = .next (fdNew w (encode i) rs c s)) :
      exec i s = .next (s.writeFd c (fdInstance w 1)) := by
    rw [hi, fdNew_result (by omega) (by rw [hop]; exact Nat.one_lt_two_pow (bits_pos w).ne'), hop]
  simp only [List.forall_mem_cons]
  exact ⟨⟨_, _, stores .w32 rfl, readFd_writeFd_self .., fun _ rd _ hd ha => exec_identity hd ha rd⟩,
    ⟨_, _, stores .w64 rfl, readFd_writeFd_self .., fun _ rd _ hd ha => exec_identity hd ha rd⟩, nofun⟩

/-- Settles O49: the error of a power of two is 0. -/
theorem powerOfTwoDivisors : Obligations.PowerOfTwoDivisors := by
  intro s rd rs c d j hd hv hm hj hjW a
  have hone : 1 < d.m.toNat := hm ▸ Nat.one_lt_two_pow (by omega)
  obtain ⟨h, hshamt, hlo, hhi⟩ := hv.shift hone
  rw [hm] at hlo hhi
  obtain rfl := exponent_eq_of_bracket hlo hhi
  obtain ⟨hceil, hceil'⟩ := hv.ceiling
  rw [hshamt] at hceil hceil'
  have hmul := mul_eq_two_pow_half (bits_pos d.w) hm hceil hceil'
  have herr : d.error = 0 := by
    rw [FdSlot.error, hmul, hm, hshamt, two_pow_shamt_eq (bits_pos d.w), Nat.sub_self]
  refine ⟨hmul, by omega, fun ha => ?_⟩
  have hexact := exec_exact hd ha hv (by rw [herr]; exact Nat.two_pow_pos _) rd
  rw [hm] at hexact
  rw [Nat.shiftRight_eq_div_pow]
  exact hexact

/-! ### Violations and read-outs -/

/-- R18: a command that answers a violation faults on a checked build and has the unchecked outcome on an unchecked one. -/
theorem exec_of_violated {i : Instr} {s : State} {cause : Cause} {u : State → State}
    (h : exec i s = .next (violate cause (encode i) u s)) :
    (s.checked = true → exec i s = .next { s with status := statusOf cause, fcmd := encode i }) ∧
    (s.checked = false → exec i s = .next (u s)) := by
  constructor <;> intro hc
  · rw [h, violate_checked s hc, raise]
  · rw [h, violate_unchecked s hc]

/-- R137, R142, R170, R172: a query whose operand does not fit the slot's width answers the range violation. -/
theorem exec_of_query_range {α : Type} {slot : Option α} {d : α} {width : α → WordWidth} {drawn : Nat → Nat}
    {value : α → Nat → Nat} {i : Instr} {s : State} {rd rs : RegIdx}
    (hi : exec i s = .next (query slot width drawn value (encode i) rd rs s)) (hd : slot = some d)
    (hrange : 2 ^ (width d).bits ≤ s.operand rs) :
    (s.checked = true → exec i s = .next { s with status := statusOf .operandRange, fcmd := encode i }) ∧
    (s.checked = false → exec i s = .next (drawReg (drawn (width d).bits) rd s)) :=
  exec_of_violated (by rw [hi, hd, query_range hrange])

/-- Settles O23: each of the four queries answers the range violation, and they differ in the bits they draw. -/
theorem queryOutOfRange : Obligations.QueryOutOfRange := by
  intro s rd rs c drawn
  refine ⟨fun d hd hrange => ?_, fun d hd hrange => ?_⟩
  · have hdiv := exec_of_query_range (i := .fddiv rd rs c) rfl hd hrange
    have hmod := exec_of_query_range (i := .fdmod rd rs c) rfl hd hrange
    simp only [List.forall_mem_cons]
    exact ⟨hdiv, hmod, nofun⟩
  · obtain ⟨hfault, hdrawn⟩ := exec_of_query_range (i := .edtest rd rs c) rfl hd hrange
    obtain ⟨hfault', hdrawn'⟩ := exec_of_query_range (i := .edquo rd rs c) rfl hd hrange
    simp only [List.forall_mem_cons]
    exact ⟨⟨hfault, hfault', nofun⟩, fun hc => ⟨hdrawn hc, hdrawn' hc⟩⟩

theorem fdNew_range {s : State} {w : WordWidth} {rs : RegIdx} (h : 2 ^ w.bits ≤ s.operand rs) (cmd : Cmd) (c : SlotIdx) :
    fdNew w cmd rs c s = violate .operandRange cmd (drawFd w c) s := by simp [fdNew, h]

theorem fdNew_zero {s : State} {rs : RegIdx} (h : s.operand rs = 0) (w : WordWidth) (cmd : Cmd) (c : SlotIdx) :
    fdNew w cmd rs c s = violate .divisorZero cmd (drawFd w c) s := by simp [fdNew, h]

/-- Settles O41: a divisor out of range and a zero divisor are the violations of `FDNEW` at either width. -/
theorem fdnewViolations : Obligations.FdnewViolations := by
  intro s rs c m violates
  have violated {w : WordWidth} {i : Instr} (hi : exec i s = .next (fdNew w (encode i) rs c s)) : violates w i := by
    have range (hrange : 2 ^ w.bits ≤ m) := exec_of_violated (hi.trans (congrArg _ (fdNew_range hrange ..)))
    have zero (h0 : m = 0) := exec_of_violated (hi.trans (congrArg _ (fdNew_zero h0 ..)))
    exact ⟨fun hc hrange => (range hrange).1 hc, fun hc h0 => (zero h0).1 hc,
      fun hc h => h.elim (fun hrange => (range hrange).2 hc) (fun h0 => (zero h0).2 hc)⟩
  exact ⟨violated rfl, violated rfl⟩

/-- Settles O50: a read-out of a full slot has its field as result, and one of an empty slot faults. -/
theorem fdReadOuts : Obligations.FdReadOuts := by
  intro s rd c gives
  refine ⟨fun d hd => ?_, fun hd => ?_⟩
  · have full {i : Instr} {v : Word} {value : FdSlot → Nat}
        (hi : exec i s = .next (readOut (s.readFd c) value (encode i) rd s)) (hv : BitVec.ofNat 128 (value d) = v) :
        exec i s = gives v := by
      rw [hi, hd, readOut_full, writeResult_eq, hv, State.writeReg]
    have hbits : BitVec.ofNat 128 d.w.bits = if d.w = .w32 then 32 else 64 := by cases d.w <;> rfl
    exact ⟨full rfl (BitVec.ofNat_toNat ..), full rfl (BitVec.ofNat_toNat ..), full rfl (BitVec.ofNat_toNat ..),
      full rfl hbits⟩
  · have empty {i : Instr} {value : FdSlot → Nat} (hi : exec i s = .next (readOut (s.readFd c) value (encode i) rd s)) :
        exec i s = .next { s with status := statusOf .ctxInvalid, fcmd := encode i } := by
      rw [hi, hd, readOut_empty, raise]
    simp only [List.forall_mem_cons]
    exact ⟨empty rfl, empty rfl, empty rfl, empty rfl, nofun⟩

end Sys2Proof.Machine
end

section
/-! SUPPORT. The Exact Divisor (spec/42_exactdiv.md): the refinement and the inverse (R161, R162, R164), what the queries of a
slot built without violation say (R169, R173, R178), and what the commands answer (R166 to R177). -/

namespace Sys2Proof.Machine

/-! ### The inverse (R161 to R164) -/

/-- A value is 1 modulo `2^k` when `2^k` divides its difference from 1. -/
theorem mod_two_pow_eq_one_iff {a k : Nat} (hk : 1 ≤ k) : a % 2 ^ k = 1 ↔ (2 ^ k : Int) ∣ a - 1 := by
  have hdvd : 1 ≡ a [MOD 2 ^ k] ↔ (2 ^ k : Int) ∣ a - 1 := by exact_mod_cast Nat.modEq_iff_dvd (a := 1) (b := a)
  rw [← hdvd, Nat.ModEq, Nat.mod_eq_of_lt (Nat.one_lt_two_pow (by omega)), eq_comm]

/-- R164: multiplication by an odd number is injective on the values below `2^W`; so an inverse is unique. -/
theorem eq_of_odd_mul_modEq {W n y z : Nat} (hn : n % 2 = 1) (hy : y < 2 ^ W) (hz : z < 2 ^ W)
    (h : n * y ≡ n * z [MOD 2 ^ W]) : y = z := by
  have hcop : Nat.Coprime (2 ^ W) n := (Nat.coprime_two_left.mpr (Nat.odd_iff.mpr hn)).pow_left W
  exact (Nat.ModEq.cancel_left_of_coprime hcop h).eq_of_lt_of_lt hy hz

theorem refinement_one {W : Nat} (hW : 0 < W) (j : Nat) : refinement W 1 j = 1 := by
  induction j with
  | zero => rfl
  | succ j ih =>
    have hlt : (1 : Int) < 2 ^ W := one_lt_pow₀ one_lt_two hW.ne'
    rw [refinement, ih, refine]
    exact congrArg Int.toNat (Int.emod_eq_of_lt zero_le_one hlt)

/-- Settles O54: the integer step's error is the square of the last one, and the reduced step follows it up to `W` bits. -/
theorem refinementDoublesCorrectBits : Obligations.RefinementDoublesCorrectBits := by
  refine ⟨fun n y j h => ?_, fun W hW => ?_⟩
  · have e : n * (y * (2 - y * n)) - 1 = -((n * y - 1) * (n * y - 1)) := by ring
    rw [e, two_mul, pow_add]
    exact (mul_dvd_mul h h).neg_right
  · have hpos : 1 ≤ W := by
      revert W
      decide
    refine ⟨fun n y j hj h => ?_, fun n j hn => ?_⟩
    · have hdvd := (mod_two_pow_eq_one_iff hj).mp h
      push_cast at hdvd
      rw [mod_two_pow_eq_one_iff (by omega)]
      exact_mod_cast refine_doubles hdvd
    · have hle : 1 ≤ 2 ^ j := Nat.one_le_two_pow
      exact refinement_mul_mod hn (le_min hle hpos) (min_le_left ..) (min_le_right ..)

/-- Settles O55: six steps reach `2^64` and five `2^32`; at 32 bits `y_5` is then the one inverse, and so `y_6`. -/
theorem inverseIsTheInverse : Obligations.InverseIsTheInverse := by
  intro n hn
  have h5 : n * refinement 32 n 5 % 2 ^ 32 = 1 := refinement_mul_mod hn (by decide) le_rfl le_rfl
  have the_inverse (w : WordWidth) : n * edInverse w.bits n % 2 ^ w.bits = 1 ∧
      ∀ z, z < 2 ^ w.bits → n * z % 2 ^ w.bits = 1 → z = edInverse w.bits n :=
    ⟨edInverse_mul w hn, fun _ hz hnz =>
      eq_of_odd_mul_modEq hn hz (edInverse_lt ..) (hnz.trans (edInverse_mul w hn).symm)⟩
  simp only [List.forall_mem_cons]
  have h6 : refinement 32 n 5 = refinement 32 n 6 := (the_inverse .w32).2 _ (refine_lt ..) h5
  exact ⟨edInverse_mul .w64 hn, h5, h6.symm, the_inverse .w32, the_inverse .w64, nofun⟩

/-! ### The queries of any slot (R168, R171) -/

namespace EdSlot

theorem quotient_eq_mod (d : EdSlot) (k : Nat) : d.quotient k = k * d.inv.toNat % 2 ^ d.w.bits := rfl

theorem quotient_lt (d : EdSlot) (k : Nat) : d.quotient k < 2 ^ d.w.bits := Nat.mod_lt _ (Nat.two_pow_pos _)

/-- R168: the word of the verdict compares the wrapped product with the threshold. -/
theorem ofNat_verdict (d : EdSlot) (k : Nat) :
    BitVec.ofNat 128 (d.verdict k) = if d.quotient k ≤ d.thr.toNat then 1 else 0 := apply_ite (BitVec.ofNat 128) ..

end EdSlot

/-! ### The queries of a slot built without violation (R169, R173) -/

namespace EdSlot.Valid

section
variable {d : EdSlot} {k p : Nat} (hv : d.Valid)
include hv

theorem divisor_pos : 0 < d.n.toNat := by
  have hodd := hv.divisor_odd
  omega

/-- R163: the threshold is the greatest factor whose product with the divisor does not wrap. -/
theorem le_thr_iff : p ≤ d.thr.toNat ↔ p * d.n.toNat < 2 ^ d.w.bits := by
  have hpos := Nat.two_pow_pos d.w.bits
  rw [hv.threshold, Nat.le_div_iff_mul_le hv.divisor_pos]
  omega

/-- R173 (a): the product of the divisor and what `EDQUO` gives wraps to the operand. -/
theorem quotient_mul_mod (hk : k < 2 ^ d.w.bits) : d.quotient k * d.n.toNat % 2 ^ d.w.bits = k := by
  have hinv : d.n.toNat * d.inv.toNat ≡ 1 [MOD 2 ^ d.w.bits] := by
    rw [Nat.ModEq, hv.inverse, Nat.mod_eq_of_lt (Nat.one_lt_two_pow (bits_pos _).ne')]
  calc d.quotient k * d.n.toNat % 2 ^ d.w.bits
      = k * (d.n.toNat * d.inv.toNat) % 2 ^ d.w.bits := by
        rw [d.quotient_eq_mod, Nat.mod_mul_mod, Nat.mul_assoc, Nat.mul_comm d.inv.toNat]
    _ = k * 1 % 2 ^ d.w.bits := hinv.mul_left k
    _ = k := by rw [Nat.mul_one, Nat.mod_eq_of_lt hk]

/-- R173 (c): the true quotient is at most the threshold for every operand. -/
theorem div_le_thr (hk : k < 2 ^ d.w.bits) : k / d.n.toNat ≤ d.thr.toNat :=
  hv.le_thr_iff.mpr ((Nat.div_mul_le_self ..).trans_lt hk)

/-- R173 (b): for a multiple of the divisor `EDQUO` gives the true quotient, whose product is the operand too. -/
theorem quotient_of_dvd (hk : k < 2 ^ d.w.bits) (hdvd : d.n.toNat ∣ k) : d.quotient k = k / d.n.toNat := by
  refine eq_of_odd_mul_modEq hv.divisor_odd (d.quotient_lt k) ((Nat.div_le_self ..).trans_lt hk) ?_
  rw [Nat.mul_div_cancel' hdvd, Nat.mul_comm, Nat.ModEq, hv.quotient_mul_mod hk, Nat.mod_eq_of_lt hk]

/-- R169: what `EDQUO` gives is at most the threshold for the multiples of the divisor only. -/
theorem quotient_le_thr_iff (hk : k < 2 ^ d.w.bits) : d.quotient k ≤ d.thr.toNat ↔ d.n.toNat ∣ k := by
  constructor
  · intro hle
    have hmul := hv.quotient_mul_mod hk
    rw [Nat.mod_eq_of_lt (hv.le_thr_iff.mp hle)] at hmul
    exact Dvd.intro_left _ hmul
  · intro hdvd
    rw [hv.quotient_of_dvd hk hdvd]
    exact hv.div_le_thr hk

end

end EdSlot.Valid

/-! ### The queries as commands (R168 to R173, R178) -/

section
variable {s : State} {rs : RegIdx} {c : SlotIdx} {d : EdSlot} (hd : s.readEd c = some d) (hk : s.operand rs < 2 ^ d.w.bits)
include hd hk

/-- R172: on a full slot and an operand in range `EDQUO` writes the slot's wrapped product. -/
theorem exec_edquo_eq (rd : RegIdx) :
    exec (.edquo rd rs c) s = .next (s.writeReg rd (BitVec.ofNat 128 (d.quotient (s.operand rs)))) := by
  rw [exec, execEdquo, hd, query_result hk, writeResult_eq]

/-- R170: and `EDTEST` whether that is at most the threshold. -/
theorem exec_edtest_eq (rd : RegIdx) :
    exec (.edtest rd rs c) s = .next (s.writeReg rd (if d.quotient (s.operand rs) ≤ d.thr.toNat then 1 else 0)) := by
  rw [exec, execEdtest, hd, query_result hk, writeResult_eq, EdSlot.ofNat_verdict]

end

/-- Settles O53: the slot's wrapped product is the formula of `EDQUO`, and `EDTEST` compares it. -/
theorem edQueriesCompute : Obligations.EdQueriesCompute := by
  intro s rd rs c d hd k hk p
  have hp : d.quotient k = p := d.quotient_eq_mod k
  rw [← hp]
  exact ⟨exec_edquo_eq hd hk rd, exec_edtest_eq hd hk rd⟩

/-- Settles O56: the wrapped product is at most the threshold for the multiples of the divisor only. -/
theorem edtestDecidesDivisibility : Obligations.EdtestDecidesDivisibility := by
  intro s rd rs c d hd hv k hk
  simp only [← hv.quotient_le_thr_iff hk]
  exact exec_edtest_eq hd hk rd

/-- Settles O57: every true quotient is at most the threshold, and what `EDQUO` gives for a non-multiple is above it. -/
theorem edquoGivesQuotientOfMultiples : Obligations.EdquoGivesQuotientOfMultiples := by
  intro s rd rs c d hd hv k n hk
  have hle : k / n ≤ d.thr.toNat := hv.div_le_thr hk
  refine ⟨d.quotient k, exec_edquo_eq hd hk rd, d.quotient_lt k, hv.quotient_mul_mod hk,
    fun hdvd => ⟨hv.quotient_of_dvd hk hdvd, (hv.quotient_le_thr_iff hk).mpr hdvd⟩, fun hnot => ?_⟩
  have hgt : d.thr.toNat < d.quotient k := Nat.lt_of_not_le (mt (hv.quotient_le_thr_iff hk).mp hnot)
  exact ⟨hgt, (hle.trans_lt hgt).ne', hle⟩

/-- Settles O58: 1 is its own inverse and divides every operand, which is then the true quotient. -/
theorem divisorOne : Obligations.DivisorOne := by
  refine ⟨?_, fun s rd rs c d hd hv hn => ?_⟩
  · simp only [List.forall_mem_cons]
    exact ⟨refinement_one (by decide), refinement_one (by decide), nofun⟩
  have hinv := hv.inverse
  have hthr := hv.threshold
  rw [hn, Nat.one_mul, Nat.mod_eq_of_lt hv.inv_lt] at hinv
  rw [hn, Nat.div_one] at hthr
  refine ⟨hinv, hthr, fun (hk : s.operand rs < 2 ^ d.w.bits) => ?_⟩
  have hdvd : d.n.toNat ∣ s.operand rs := hn ▸ one_dvd _
  have htest := exec_edtest_eq hd hk rd
  have hquo := exec_edquo_eq hd hk rd
  rw [if_pos ((hv.quotient_le_thr_iff hk).mpr hdvd)] at htest
  rw [hv.quotient_of_dvd hk hdvd, hn, Nat.div_one, State.operand, BitVec.ofNat_toNat, BitVec.setWidth_eq] at hquo
  exact ⟨htest, hquo⟩

/-! ### Violations and read-outs (R166, R167, R174 to R177) -/

section
variable {s : State} {w : WordWidth} {rs : RegIdx}

theorem edNew_range (h : 2 ^ w.bits ≤ s.operand rs) (cmd : Cmd) (c : SlotIdx) :
    edNew w cmd rs c s = violate .operandRange cmd (drawEd w c) s := by simp [edNew, h]

theorem edNew_zero (h : s.operand rs = 0) (w : WordWidth) (cmd : Cmd) (c : SlotIdx) :
    edNew w cmd rs c s = violate .divisorZero cmd (drawEd w c) s := by simp [edNew, h]

theorem edNew_even (hw : s.operand rs < 2 ^ w.bits) (h0 : s.operand rs ≠ 0) (h : s.operand rs % 2 = 0) (cmd : Cmd)
    (c : SlotIdx) : edNew w cmd rs c s = violate .divisorEven cmd (drawEd w c) s := by
  simp [edNew, Nat.not_le.mpr hw, h0, h]

/-- R195: whichever violations hold, one of them is answered. -/
theorem edNew_violated (h : 2 ^ w.bits ≤ s.operand rs ∨ s.operand rs % 2 = 0) (cmd : Cmd) (c : SlotIdx) :
    ∃ cause, edNew w cmd rs c s = violate cause cmd (drawEd w c) s := by
  rcases edNew_cases (s := s) w cmd rs c with ⟨-, e⟩ | ⟨-, e⟩ | ⟨-, -, -, e⟩ | ⟨hlt, hodd, -⟩
  · exact ⟨_, e⟩
  · exact ⟨_, e⟩
  · exact ⟨_, e⟩
  · omega

end

/-- Settles O52: out of range, zero and even divisors are the violations of `EDNEW` at either width. -/
theorem ednewViolations : Obligations.EdnewViolations := by
  intro s rs c n violates
  have violated {w : WordWidth} {i : Instr} (hi : exec i s = .next (edNew w (encode i) rs c s)) : violates w i := by
    have answers {cause : Cause} (e : edNew w (encode i) rs c s = violate cause (encode i) (drawEd w c) s) :=
      exec_of_violated (hi.trans (congrArg _ e))
    refine ⟨fun hc hrange => (answers (edNew_range hrange ..)).1 hc, fun hc h0 => (answers (edNew_zero h0 ..)).1 hc,
      fun hc hw h0 heven => (answers (edNew_even hw h0 heven ..)).1 hc, fun hc h => ?_⟩
    obtain ⟨cause, e⟩ := edNew_violated h (encode i) c
    exact (answers e).2 hc
  exact ⟨violated rfl, violated rfl⟩

section
variable {α : Type} {slot : Option α} {value : α → Nat} {i : Instr} {s : State} {rd : RegIdx}
  (hi : exec i s = .next (readOut slot value (encode i) rd s))
include hi

/-- R174 to R177: a read-out of a full slot writes its field. -/
theorem exec_of_readOut_full {d : α} {v : Word} (hd : slot = some d) (hv : BitVec.ofNat 128 (value d) = v) :
    exec i s = .next (s.writeReg rd v) := by
  rw [hi, hd, readOut_full, writeResult_eq, hv]

/-- R174 to R177: a read-out of an empty slot faults on both builds. -/
theorem exec_of_readOut_empty (hd : slot = none) :
    exec i s = .next { s with status := statusOf .ctxInvalid, fcmd := encode i } := by
  rw [hi, hd, readOut_empty, raise]

end

/-- R177: the word of a width's number of bits. -/
theorem ofNat_bits (w : WordWidth) : BitVec.ofNat 128 w.bits = if w = .w32 then 32 else 64 := by cases w <;> rfl

/-- Settles O59: each of the four is a read-out of its field, and the three values widen without loss. -/
theorem edReadOuts : Obligations.EdReadOuts := by
  intro s rd c gives
  refine ⟨fun d hd => ?_, fun hd => ?_⟩
  · exact ⟨exec_of_readOut_full rfl hd (BitVec.ofNat_toNat ..), exec_of_readOut_full rfl hd (BitVec.ofNat_toNat ..),
      exec_of_readOut_full rfl hd (BitVec.ofNat_toNat ..), exec_of_readOut_full rfl hd (ofNat_bits d.w)⟩
  · simp only [List.forall_mem_cons]
    exact ⟨exec_of_readOut_empty rfl hd, exec_of_readOut_empty rfl hd, exec_of_readOut_empty rfl hd,
      exec_of_readOut_empty rfl hd, nofun⟩

end Sys2Proof.Machine
end

section
/-! SUPPORT. Faults (spec/60_exceptions.md): what an empty slot raises (R191, R195), that the two builds agree on every command
that violates nothing (R194), and that a halted block is frozen until `Reset` (R197, R198). -/

namespace Sys2Proof.Machine

/-! ### Empty slots (R191, R195) -/

/-- R195: a query looks at its slot before its operand, so an empty one faults on both builds. -/
theorem exec_of_query_empty {α : Type} {slot : Option α} {width : α → WordWidth} {drawn : Nat → Nat}
    {value : α → Nat → Nat} {i : Instr} {s : State} {rd rs : RegIdx}
    (hi : exec i s = .next (query slot width drawn value (encode i) rd rs s)) (hd : slot = none) :
    exec i s = .next { s with status := statusOf .ctxInvalid, fcmd := encode i } := by
  rw [hi, hd, query_empty, raise]

/-- Settles O22: of the commands on each file two are queries and four are read-outs. -/
theorem emptySlotRaises : Obligations.EmptySlotRaises := by
  intro s rd rs c
  simp only [List.forall_mem_cons]
  constructor <;>
  · intro hd
    exact ⟨exec_of_query_empty rfl hd, exec_of_query_empty rfl hd, exec_of_readOut_empty rfl hd,
      exec_of_readOut_empty rfl hd, exec_of_readOut_empty rfl hd, exec_of_readOut_empty rfl hd, nofun⟩

/-! ### The two builds (R194) -/

/-- R192, R194: an unchecked build reports no violated precondition. -/
theorem eq_ctxInvalid_of_raisable_unchecked {i : Instr} {cause : Cause} (h : cause ∈ raisable false i) :
    cause = .ctxInvalid := by
  cases i
  case fddiv | fdmod | fdrdM | fdrdMul | fdrdShamt | fdrdW | edtest | edquo | edrdN | edrdInv | edrdThr | edrdW =>
    exact List.mem_singleton.mp h
  all_goals exact absurd h List.not_mem_nil

/-- The state on a build of the given `CHECKED` (log 1). -/
def State.onBuild (s : State) (checked : Bool) : State := { s with checked := checked }

theorem onBuild_eq_self {s : State} {checked : Bool} (h : s.checked = checked) : s.onBuild checked = s := by
  subst h
  rfl

/-- What a command makes of one state on the checked and on the unchecked build: the same, or, where it violates a
precondition, a fault on the one and a draw on the other. -/
inductive BuildEffects (s : State) : State → State → Prop where
  | agree (t : State) : BuildEffects s (t.onBuild true) (t.onBuild false)
  | violated {t u : State} (hfault : t.halted = true) (hdraw : u.draws ≠ s.draws) : BuildEffects s t u

section
variable (s : State)

theorem BuildEffects.of_violate (cause : Cause) (cmd : Cmd) {u : State → State}
    (hu : (u (s.onBuild false)).draws ≠ s.draws) :
    BuildEffects s (violate cause cmd u (s.onBuild true)) (violate cause cmd u (s.onBuild false)) := by
  rw [violate_checked _ rfl, violate_unchecked _ rfl]
  exact .violated (halted_raise ..) hu

theorem drawReg_draws_ne (bits : Nat) (rd : RegIdx) : (drawReg bits rd (s.onBuild false)).draws ≠ s.draws :=
  Nat.succ_ne_self s.draws

theorem BuildEffects.of_scan (N : Nat) (F : Nat → Nat) (z : Bool) (cmd : Cmd) (rd rs : RegIdx) :
    BuildEffects s (scan N F z cmd rd rs (s.onBuild true)) (scan N F z cmd rd rs (s.onBuild false)) := by
  rcases scan_cases (s := s.onBuild true) N F z cmd rd rs with ⟨h, e⟩ | ⟨rfl, h, e⟩ | ⟨h, hz, e⟩
  · rw [e, scan_range (s := s.onBuild false) h]
    exact .of_violate s _ _ (drawReg_draws_ne s _ rd)
  · rw [e, scan_zero (s := s.onBuild false) h]
    exact .of_violate s _ _ (drawReg_draws_ne s _ rd)
  · rw [e, scan_result (s := s.onBuild false) h hz]
    exact .agree (s.writeResult rd (F (s.operand rs)))

theorem BuildEffects.of_query {α : Type} (slot : Option α) (width : α → WordWidth) (drawn : Nat → Nat)
    (value : α → Nat → Nat) (cmd : Cmd) (rd rs : RegIdx) : BuildEffects s
      (query slot width drawn value cmd rd rs (s.onBuild true)) (query slot width drawn value cmd rd rs (s.onBuild false)) := by
  rcases query_cases (s := s.onBuild true) slot width drawn value cmd rd rs with ⟨rfl, -⟩ | ⟨d, rfl, h, e⟩ | ⟨d, rfl, h, e⟩
  · exact .agree (raise .ctxInvalid cmd s)
  · rw [e, query_range (s := s.onBuild false) h]
    exact .of_violate s _ _ (drawReg_draws_ne s _ rd)
  · rw [e, query_result (s := s.onBuild false) h]
    exact .agree (s.writeResult rd (value d (s.operand rs)))

theorem BuildEffects.of_readOut {α : Type} (slot : Option α) (value : α → Nat) (cmd : Cmd) (rd : RegIdx) :
    BuildEffects s (readOut slot value cmd rd (s.onBuild true)) (readOut slot value cmd rd (s.onBuild false)) := by
  cases slot with
  | none => exact .agree (raise .ctxInvalid cmd s)
  | some d => exact .agree (s.writeResult rd (value d))

theorem BuildEffects.of_fdNew (w : WordWidth) (cmd : Cmd) (rs : RegIdx) (c : SlotIdx) :
    BuildEffects s (fdNew w cmd rs c (s.onBuild true)) (fdNew w cmd rs c (s.onBuild false)) := by
  have hdraw : (drawFd w c (s.onBuild false)).draws ≠ s.draws := by simp [drawFd_eq, State.onBuild]
  rcases fdNew_cases (s := s.onBuild true) w cmd rs c with ⟨h, e⟩ | ⟨h, e⟩ | ⟨h0, hw, e⟩
  · rw [e, fdNew_range (s := s.onBuild false) h]
    exact .of_violate s _ _ hdraw
  · rw [e, fdNew_zero (s := s.onBuild false) h]
    exact .of_violate s _ _ hdraw
  · rw [e, fdNew_result (s := s.onBuild false) h0 hw]
    exact .agree (s.writeFd c (fdInstance w (s.operand rs)))

theorem BuildEffects.of_edNew (w : WordWidth) (cmd : Cmd) (rs : RegIdx) (c : SlotIdx) :
    BuildEffects s (edNew w cmd rs c (s.onBuild true)) (edNew w cmd rs c (s.onBuild false)) := by
  have hdraw : (drawEd w c (s.onBuild false)).draws ≠ s.draws := by simp [drawEd_eq, State.onBuild]
  rcases edNew_cases (s := s.onBuild true) w cmd rs c with ⟨h, e⟩ | ⟨h, e⟩ | ⟨hw, h0, h, e⟩ | ⟨hw, hn, e⟩
  · rw [e, edNew_range (s := s.onBuild false) h]
    exact .of_violate s _ _ hdraw
  · rw [e, edNew_zero (s := s.onBuild false) h]
    exact .of_violate s _ _ hdraw
  · rw [e, edNew_even (s := s.onBuild false) hw h0 h]
    exact .of_violate s _ _ hdraw
  · rw [e, edNew_result (s := s.onBuild false) hn hw]
    exact .agree (s.writeEd c (edInstance w (s.operand rs)))

/-- R18, R194: the two builds differ in a command only where it violates a precondition. -/
theorem exec_buildEffects (i : Instr) : ∃ t u, exec i (s.onBuild true) = .next t ∧ exec i (s.onBuild false) = .next u ∧
    BuildEffects s t u := by
  cases i
  case popcnt32 | popcnt64 | popcnt128 | clz32 | clz64 | clz128 | ctz32 | ctz64 | ctz128 | ilog2_32 | ilog2_64 | ilog2_128 =>
    exact ⟨_, _, rfl, rfl, .of_scan ..⟩
  case fdnew32 | fdnew64 => exact ⟨_, _, rfl, rfl, .of_fdNew ..⟩
  case ednew32 | ednew64 => exact ⟨_, _, rfl, rfl, .of_edNew ..⟩
  case fddiv rd rs c | fdmod rd rs c => exact ⟨_, _, rfl, rfl, .of_query s (s.readFd c) ..⟩
  case edtest rd rs c | edquo rd rs c => exact ⟨_, _, rfl, rfl, .of_query s (s.readEd c) ..⟩
  case fdrdM rd c | fdrdMul rd c | fdrdShamt rd c | fdrdW rd c => exact ⟨_, _, rfl, rfl, .of_readOut s (s.readFd c) ..⟩
  case edrdN rd c | edrdInv rd c | edrdThr rd c | edrdW rd c => exact ⟨_, _, rfl, rfl, .of_readOut s (s.readEd c) ..⟩

end

/-- Settles O21: a command that did not halt the checked build, or did not draw on the unchecked one, violated nothing. -/
theorem buildsAgreeWithoutViolation : Obligations.BuildsAgreeWithoutViolation := by
  refine ⟨fun i s t hc hs he ht => ?_, fun i s t hc he hrun => ?_, fun i s t hc he hdraw => ?_⟩
  · obtain ⟨cause, hr, rfl⟩ := (exec_cases he).fault_of_halts hs ht
    rw [hc] at hr
    rw [eq_ctxInvalid_of_raisable_unchecked hr]
    rfl
  · obtain ⟨t', u, e, e', hboth⟩ := exec_buildEffects s i
    rw [onBuild_eq_self hc, he] at e
    cases e
    cases hboth with
    | agree => exact e'
    | violated hfault => exact absurd (hrun.symm.trans hfault) Bool.false_ne_true
  · obtain ⟨t', u, e, e', hboth⟩ := exec_buildEffects s i
    rw [onBuild_eq_self hc, he] at e'
    cases e'
    cases hboth with
    | agree => exact e
    | violated _ hne => exact absurd hdraw hne

/-! ### The halted block (R197, R198) -/

/-- R197: all that a transaction other than `Reset` can do on a halted block is to return a value. -/
theorem transact_halted {s : State} (hs : s.halted = true) {t : Transaction} (ht : t ≠ .reset) :
    ∃ r, transact t s = .next { s with returned := r } := by
  cases t with
  | hostWriteReg j v => exact ⟨s.returned, congrArg _ (hostWriteReg_halted hs j v)⟩
  | hostReadReg | hostReadCtl => exact ⟨_, rfl⟩
  | issue cmd => exact ⟨s.returned, issue_halted hs cmd⟩
  | reset => exact absurd rfl ht

/-- R197, R198: and so of any number of them. -/
theorem runList_halted {ts : List Transaction} (hts : .reset ∉ ts) {s : State} (hs : s.halted = true) :
    ∃ r, runList ts s = .next { s with returned := r } := by
  induction ts generalizing s with
  | nil => exact ⟨s.returned, rfl⟩
  | cons t ts ih =>
    obtain ⟨r, e⟩ := transact_halted hs (List.ne_of_not_mem_cons hts).symm
    obtain ⟨r', e'⟩ := ih (List.not_mem_of_not_mem_cons hts) (s := { s with returned := r }) hs
    exact ⟨r', (runList_cons e ts).trans e'⟩

/-- Settles O18: the run changes nothing but the list of returned values. -/
theorem firstFaultIsKept : Obligations.FirstFaultIsKept := by
  intro ts s t hs hts h
  obtain ⟨r, e⟩ := runList_halted hts hs
  cases h.symm.trans e
  exact ⟨rfl, rfl, rfl, rfl, rfl⟩

/-- Settles O17: each step is its transaction, on a state that is halted whatever is pending. -/
theorem haltedBlockIsFrozen : Obligations.HaltedBlockIsFrozen := by
  intro s hs
  have halted (rest : List Transaction) : (s.withPending rest).halted = true := hs
  refine ⟨fun hright => Bool.false_ne_true (hright.symm.trans hs), fun cmd rest hp => ?_, fun j v rest hp => ?_,
    fun _ _ => step_transact, fun _ _ => step_transact, fun _ hp => ⟨_, step_transact hp, halted_resetBlock _⟩⟩
  · exact (step_transact hp).trans (issue_halted (halted rest) cmd)
  · exact (step_transact hp).trans (congrArg _ (hostWriteReg_halted (halted rest) j v))

end Sys2Proof.Machine
end
